-- ==== Sys2Proof/Word.lean ====
section
/-! DEFINITION. The three widths of the block: a byte of a buffer, an operand or result, a command or
response word (00_scope.md R8). -/

namespace Sys2Proof

/-- An element of a buffer, 8 bits (R8). -/
abbrev Byte := BitVec 8

/-- A command operand or a result, 32 bits (R8). -/
abbrev Word := BitVec 32

/-- A command word or a response word, 64 bits (R8, R60, R61). -/
abbrev PortWord := BitVec 64

end Sys2Proof
end

