-- ==== Sys2Proof/Syntax.lean ====
section
/-! DEFINITION. The command set of 30_encoding.md R67, one constructor per row of the opcode map, and the
three fields and three formats of a command word (R60, R62, R63, R64). -/

namespace Sys2Proof

/-- The fifteen commands (30_encoding.md R67). The operand of a format V command is any 32-bit
value (R63); that of the format B command is a byte (R64). -/
inductive Instr where
  /-- `RST` (45_system_commands.md R190) -/
  | rst
  /-- `STAT` (45_system_commands.md R191) -/
  | stat
  /-- `BNEW w` (43_builder_commands.md R170) -/
  | bnew (w : Word)
  /-- `BADD c` (43_builder_commands.md R171) -/
  | badd (c : Word)
  /-- `BFIN` (43_builder_commands.md R172) -/
  | bfin
  /-- `BCNT` (43_builder_commands.md R173) -/
  | bcnt
  /-- `DNEW w` (44_decoder_commands.md R180) -/
  | dnew (w : Word)
  /-- `GET i` (44_decoder_commands.md R181) -/
  | get (i : Word)
  /-- `LEN` (44_decoder_commands.md R182) -/
  | len
  /-- `CCLR` (42_compress.md R158) -/
  | cclr
  /-- `CPUT b` (42_compress.md R159) -/
  | cput (b : Byte)
  /-- `CLEN`, the command (42_compress.md R160) -/
  | clen
  /-- `CGET a` (42_compress.md R161) -/
  | cget (a : Word)
  /-- `PLEN`, the command (40_bitpacker.md R90) -/
  | plen
  /-- `PGET a` (40_bitpacker.md R91) -/
  | pget (a : Word)
  deriving DecidableEq, Repr

/-- The three command formats: N has no operand (R62), V a 32-bit value (R63), B a byte (R64). -/
inductive Format where
  | n
  | v
  | b
  deriving DecidableEq, Repr

/-- A command word taken apart into the fields of R60, before anything is checked. -/
structure Fields where
  /-- `OPC`, bits 63:56 -/
  opc : BitVec 8
  /-- `RSV`, bits 55:32 -/
  rsv : BitVec 24
  /-- `ARG`, bits 31:0 -/
  arg : Word
  deriving DecidableEq, Repr

end Sys2Proof
end

