-- ==== Sys2Proof/WellFormed.lean ====
section
/-! DEFINITION. Which fields make a well-formed command word of a format (30_encoding.md R62, R63, R64,
R69). A term of `Instr` needs no check of its own: its operand has the width of its format. -/

namespace Sys2Proof

/-- The operands a format admits: N only 0 (R62), V every value (R63), B those with `ARG[31:8] = 0`
(R64). -/
def Format.admits : Format → Word → Bool
  | .n, a => a == 0
  | .v, _ => true
  | .b, a => a.toNat < 256

/-- The fields of a well-formed command word of format `f`: `RSV` is 0 and the operand is one the format
admits (R69). -/
def Fields.wellFormed (f : Format) (x : Fields) : Bool :=
  x.rsv == 0 && f.admits x.arg

end Sys2Proof
end

