-- ==== Sys2Proof/Decode.lean ====
section
/-! DEFINITION. Decoding a 64-bit command word (30_encoding.md R60, R67 to R70, R73), total and rejecting
by name, and encoding a command. -/

namespace Sys2Proof

/-- Why a word is illegal (R68, R69). The block answers each of them with `IllegalCommand`. -/
inductive Illegal where
  /-- `OPC` is not in the table of R67 (R68) -/
  | reservedOpcode
  /-- `RSV` is not 0 (R69) -/
  | reservedBits
  /-- format N with `ARG` not 0 (R69) -/
  | operandNotZero
  /-- format B with `ARG[31:8]` not 0 (R69) -/
  | operandHighBits
  deriving DecidableEq, Repr

/-- The fields of a command word: `OPC` 63:56, `RSV` 55:32, `ARG` 31:0 (R60). -/
def fields (c : PortWord) : Fields :=
  { opc := c.extractLsb' 56 8, rsv := c.extractLsb' 32 24, arg := c.extractLsb' 0 32 }

/-- A row of the opcode map: the opcode, its format, and the command made from the operand. -/
structure OpcodeRow where
  opc : BitVec 8
  format : Format
  command : Word → Instr

/-- The opcode map (R67). -/
def opcodeMap : List OpcodeRow :=
  [ ⟨0x01, .n, fun _ => .rst⟩,
    ⟨0x02, .n, fun _ => .stat⟩,
    ⟨0x10, .v, fun v => .bnew v⟩,
    ⟨0x11, .v, fun v => .badd v⟩,
    ⟨0x12, .n, fun _ => .bfin⟩,
    ⟨0x13, .n, fun _ => .bcnt⟩,
    ⟨0x20, .v, fun v => .dnew v⟩,
    ⟨0x21, .v, fun v => .get v⟩,
    ⟨0x22, .n, fun _ => .len⟩,
    ⟨0x30, .n, fun _ => .cclr⟩,
    ⟨0x31, .b, fun v => .cput (v.extractLsb' 0 8)⟩,
    ⟨0x32, .n, fun _ => .clen⟩,
    ⟨0x33, .v, fun v => .cget v⟩,
    ⟨0x40, .n, fun _ => .plen⟩,
    ⟨0x41, .v, fun v => .pget v⟩ ]

/-- The row of an opcode, none where the opcode is reserved (R68). -/
def rowOf (opc : BitVec 8) : Option OpcodeRow :=
  opcodeMap.find? fun r => r.opc == opc

/-- `Decode` of R73, its four checks in order. -/
def decode (c : PortWord) : Except Illegal Instr :=
  let x := fields c
  match rowOf x.opc with
  | none => .error .reservedOpcode
  | some r =>
    if x.rsv ≠ 0 then .error .reservedBits
    else if r.format = .n ∧ x.arg ≠ 0 then .error .operandNotZero
    else if r.format = .b ∧ x.arg.extractLsb' 8 24 ≠ 0 then .error .operandHighBits
    else .ok (r.command x.arg)

/-- The opcode of a command (R67). -/
def opcode : Instr → BitVec 8
  | .rst => 0x01
  | .stat => 0x02
  | .bnew _ => 0x10
  | .badd _ => 0x11
  | .bfin => 0x12
  | .bcnt => 0x13
  | .dnew _ => 0x20
  | .get _ => 0x21
  | .len => 0x22
  | .cclr => 0x30
  | .cput _ => 0x31
  | .clen => 0x32
  | .cget _ => 0x33
  | .plen => 0x40
  | .pget _ => 0x41

/-- The format of a command (R67). -/
def formatOf : Instr → Format
  | .rst | .stat | .bfin | .bcnt | .len | .cclr | .clen | .plen => .n
  | .bnew _ | .badd _ | .dnew _ | .get _ | .cget _ | .pget _ => .v
  | .cput _ => .b

/-- The operand field of a command (R62, R63, R64). -/
def operand : Instr → Word
  | .rst | .stat | .bfin | .bcnt | .len | .cclr | .clen | .plen => 0
  | .bnew v | .badd v | .dnew v | .get v | .cget v | .pget v => v
  | .cput b => b.setWidth 32

/-- The word of a command: `OPC`, 24 zero bits, `ARG` (R60). -/
def encode (i : Instr) : PortWord :=
  (opcode i ++ (0 : BitVec 24)) ++ operand i

/-- The command the decoder reads from a word whose low `nbits` bits are those of `w` and whose other
bits are 0; none where it refuses, or where more than the 64 bits of a command word are given (R18, R60).
A command word has no byte order (20_memory.md R47). DESIGN CHOICE, safe (log 15). -/
def decodeTableWord (nbits w : Nat) : Option Instr :=
  if 64 < nbits then none
  else (decode (BitVec.ofNat 64 (w % 2 ^ nbits))).toOption

end Sys2Proof
end

