-- ==== Sys2Proof/Config.lean ====
section
/-! DEFINITION. The open parameters of the block (00_scope.md R6, R7). A block is built with values for
them and never changes them; none has a value in the spec. -/

namespace Sys2Proof

/-- Which compressor a block has, the parameter `Compress` of R7: the reference kernel of
42_compress.md R155, which is the default, or another one, by number. -/
inductive Kernel where
  | reference
  | other (k : Nat)
  deriving DecidableEq, Repr

/-- The parameters of R6 and R7. -/
structure Config where
  /-- `PBUF_BYTES`, the capacity of the packed buffer memory -/
  pbufBytes : Nat
  /-- `CBUF_BYTES`, the capacity of the compressed buffer memory -/
  cbufBytes : Nat
  /-- `MAX_EXPANDED`, the most bytes a decompression may produce -/
  maxExpanded : Nat
  /-- `Compress`, by name: a function cannot stand in plain data -/
  kernel : Kernel
  deriving DecidableEq, Repr

/-- The bounds R6 sets on the three numbers. -/
abbrev Config.wf (c : Config) : Prop :=
  1 ≤ c.pbufBytes ∧ 8 * c.pbufBytes < 2 ^ 32 ∧
  8 ≤ c.cbufBytes ∧ c.cbufBytes < 2 ^ 32 ∧
  c.maxExpanded ≤ c.pbufBytes

/-- The compressors other than the reference kernel: free functions, of which nothing is known here.
What R150 lets a proof assume of one is the predicate `Machine.CompressLossless` of
Sys2Proof/Safety.lean, a premise where it is needed. DESIGN CHOICE, safe (log 2). -/
opaque Config.otherCompress : Nat → List Byte → List Byte

/-- The bytes the spec leaves unspecified (93_implementation_defined.md section 1, items 7 and 8): the byte at
an address after the given draw. A free value, of which nothing is known. DESIGN CHOICE, safe (log 6). -/
opaque Config.unspecifiedByte : Nat → Nat → Byte

/-- The parameters the block has at `State.reset`: those of the command vectors of
95_test_vectors.md section 3. DESIGN CHOICE, unsafe for a claim about `State.reset` alone (log 1). -/
def Config.atReset : Config :=
  { pbufBytes := 64, cbufBytes := 96, maxExpanded := 64, kernel := .reference }

end Sys2Proof
end

