-- ==== Sys2Proof/Machine/State.lean ====
section
/-! DEFINITION. The state of the block (10_state.md R20 to R27), what the host does to it (00_scope.md R19),
the reasons a step can stop, and the state after reset (R32). -/

namespace Sys2Proof.Machine

/-- The register `PHASE` (R22): which lifecycle state the context is in. -/
inductive Phase where
  /-- `IDLE` = 0: no context -/
  | idle
  /-- `OPEN` = 1: a builder accepting appends -/
  | opened
  /-- `BUILT` = 2: a finalized builder -/
  | built
  /-- `DEC` = 3: a decoder -/
  | dec
  deriving DecidableEq, Repr

/-- What the host does next (R16, R19). It presents a word only when it has taken the response to the one
before (20_memory.md R53), so the inputs come one after another. DESIGN CHOICE (log 3, 8). -/
inductive HostInput where
  /-- presents a command word, any 64 bits (R19) -/
  | command (w : PortWord)
  /-- asserts the reset input, between two commands (`none`) or while the given command is executing,
  which abandons that command (70_reset_and_hazards.md R240). DEDUCED (log 9). -/
  | reset (abandoned : Option PortWord)
  deriving DecidableEq, Repr

/-- A buffer memory: the bytes that differ from what an unlisted address reads as, by rising address. -/
abbrev Memory := List Host.Cell

/-- The state: the five registers and the two buffers of R20, and the model's own four fields. -/
structure State where
  /-- `PHASE`, 2 bits (R22) -/
  phase : Phase
  /-- `WIDTH`, 4 bits (R21) -/
  width : BitVec 4
  /-- `COUNT`, 32 bits (R23) -/
  count : Word
  /-- `PLEN`, 32 bits (R24) -/
  plen : Word
  /-- `CLEN`, 32 bits (R25) -/
  clen : Word
  /-- `PBUF`, the packed space (R26, 20_memory.md R40) -/
  pbuf : Memory
  /-- `CBUF`, the compressed space (R27, 20_memory.md R40) -/
  cbuf : Memory
  /-- The parameters the block was built with (00_scope.md R6, R7); no step changes them. Not the spec's
  state. DESIGN CHOICE (log 1). -/
  cfg : Config
  /-- What the host has still to do, the next input first. Not the spec's state. DESIGN CHOICE (log 3). -/
  host : List HostInput
  /-- The response word of the last command (30_encoding.md R61), none before the first and after the
  reset input (R240). No command reads it (R33). Not the spec's state. DESIGN CHOICE (log 4). -/
  rsp : Option PortWord
  /-- How many times bytes of a buffer became unspecified: it tells one draw of free bytes from the next.
  Not the spec's state. DESIGN CHOICE (log 6). -/
  draws : Nat
  deriving DecidableEq, Repr

/-- Why the machine stops with a fault. The block has no fault state (00_scope.md R18): these stand for an
access to an address that does not exist (20_memory.md R40), which no state that meets `Invariants` makes. -/
inductive Fault where
  /-- An access to the packed space at or above `PBUF_BYTES`: raised by the reads and writes of `PBUF` in
  Machine/Ops.lean, so by `BADD`, `BFIN`, `DNEW`, `GET` and `PGET` in states that no run reaches. Safe
  (log 10). -/
  | packedAddress (a : Nat)
  /-- An access to the compressed space at or above `CBUF_BYTES`: raised by the reads and writes of `CBUF`
  in Machine/Ops.lean, so by `BFIN`, `DNEW`, `CPUT` and `CGET` in states that no run reaches. Safe
  (log 10). -/
  | compressedAddress (a : Nat)
  deriving DecidableEq, Repr

/-- Why the model gives no answer. -/
inductive Refusal where
  /-- An instruction without a meaning yet: raised by an arm of `exec` alone; no arm does. Safe. -/
  | notModelled (mnemonic : String)
  deriving DecidableEq, Repr

/-- What a step or a command ends in. -/
abbrev Result := Host.Outcome State Fault Refusal

/-- The state after reset (R32, R241): `IDLE`, the other four registers 0. The bytes of the buffers are
unspecified and unobservable there; the model lists none (log 5). The parameters, the empty list of inputs,
the absent response and the number of draws are the model's (log 1, 3, 4, 6). -/
def State.reset : State :=
  { phase := .idle, width := 0, count := 0, plen := 0, clen := 0, pbuf := [], cbuf := [],
    cfg := Config.atReset, host := [], rsp := none, draws := 0 }

end Sys2Proof.Machine
end

