-- ==== Sys2Proof/Machine/Flags.lean ====
section
/-! DEFINITION. The status of a command and the codes software sees: status codes (60_exceptions.md R211 to
R221), the response word (30_encoding.md R61), the code of the phase (10_state.md R22). The block has no
condition codes and no sticky flags (R33). -/

namespace Sys2Proof.Machine

/-- The status of a command: D0's taxonomy and the three errors the hardware adds. -/
inductive Status where
  | ok
  | invalidBitWidth
  | valueOutOfRange
  | indexOutOfBounds
  | builderAlreadyFinalized
  | corruptData
  | decompressionLimitExceeded
  /-- reserved: no command produces it (R218) -/
  | malformedEncoding
  | capacityExceeded
  | illegalState
  | illegalCommand
  deriving DecidableEq, Repr

/-- The number of a status (R211 to R221). -/
def Status.code : Status → BitVec 8
  | .ok => 0
  | .invalidBitWidth => 1
  | .valueOutOfRange => 2
  | .indexOutOfBounds => 3
  | .builderAlreadyFinalized => 4
  | .corruptData => 5
  | .decompressionLimitExceeded => 6
  | .malformedEncoding => 7
  | .capacityExceeded => 8
  | .illegalState => 9
  | .illegalCommand => 10

/-- The response word: `ST` 63:56, 24 zero bits, `RES` 31:0 (R61). -/
def responseWord (st : Status) (res : Word) : PortWord :=
  (st.code ++ (0 : BitVec 24)) ++ res

/-- The field `ST` of a response word (R61). -/
def responseStatus (q : PortWord) : BitVec 8 := q.extractLsb' 56 8

/-- The field `RES` of a response word (R61). -/
def responseResult (q : PortWord) : Word := q.extractLsb' 0 32

/-- The number of a phase (R22). -/
def Phase.code : Phase → BitVec 2
  | .idle => 0
  | .opened => 1
  | .built => 2
  | .dec => 3

end Sys2Proof.Machine
end

