-- ==== Sys2Proof/Machine/Operands.lean ====
section
/-! DEFINITION. Operands and results: how a command's operand is read (30_encoding.md R65), which widths are
legal (00_scope.md R5), and how a narrower value becomes a result (R66, R13). -/

namespace Sys2Proof.Machine

/-- The operand as a natural number: never extended, scaled or truncated (R65). -/
def operandNat (v : Word) : Nat := v.toNat

/-- `w ∈ {1, 2, 4, 8}` (R5). -/
def legalWidth (w : Word) : Bool := w == 1 || w == 2 || w == 4 || w == 8

/-- A legal width operand as the contents of `WIDTH` (R21). -/
def widthOf (w : Word) : BitVec 4 := w.setWidth 4

/-- `zext_32` of a byte (R13, R66). -/
def zext32 (b : Byte) : Word := b.setWidth 32

/-- A length or count as a result (R66). -/
def resultNat (n : Nat) : Word := BitVec.ofNat 32 n

/-- The result of `STAT`: `(WIDTH << 4) | PHASE` (45_system_commands.md R191). -/
def statResult (p : Phase) (w : BitVec 4) : Word :=
  (w.setWidth 32 <<< 4) ||| p.code.setWidth 32

end Sys2Proof.Machine
end

