-- ==== Sys2Proof/Machine/Ops.lean ====
section
/-! DEFINITION. The operations the meanings share: the two buffer memories (10_state.md R26, R27, 20_memory.md
R40 to R51), responding and raising an error (30_encoding.md R61, 60_exceptions.md R210), the updates of the
registers, reset (70_reset_and_hazards.md R240), and taking the host's next input. -/

namespace Sys2Proof.Machine

/-! ### One byte of a memory -/

/-- What an address that is not listed reads as. The spec leaves it open (R32) and lets no command observe
it (R26, R27). DESIGN CHOICE, unsafe (log 5). -/
def unlistedByte : Byte := 0

/-- The byte at an address. -/
def Memory.read : Memory → Nat → Byte
  | [], _ => unlistedByte
  | (k, v) :: m, a => if k = a then v else Memory.read m a

/-- The memory with one byte written, in canonical form. -/
def Memory.write : Memory → Nat → Byte → Memory
  | [], a, b => if b = unlistedByte then [] else [(a, b)]
  | (k, v) :: m, a, b =>
    if a < k then (if b = unlistedByte then (k, v) :: m else (a, b) :: (k, v) :: m)
    else if a = k then (if b = unlistedByte then m else (a, b) :: m)
    else (k, v) :: Memory.write m a b

/-- The canonical form: addresses strictly rise from `lo` on, and no entry equals what an unlisted address
reads as. -/
def Memory.wfFrom : Nat → Memory → Bool
  | _, [] => true
  | lo, (k, v) :: m => decide (lo ≤ k) && v != unlistedByte && Memory.wfFrom (k + 1) m

/-- The memory is in canonical form. -/
def Memory.wf (m : Memory) : Bool := Memory.wfFrom 0 m

/-- The `n` bytes from address `a` on, lowest address first (R44). -/
def Memory.readRange (m : Memory) (a n : Nat) : List Byte :=
  (List.range' a n).map m.read

/-- The memory with a byte sequence written from address `a` upward (R44). -/
def Memory.writeRange : Memory → Nat → List Byte → Memory
  | m, _, [] => m
  | m, a, b :: bs => Memory.writeRange (m.write a b) (a + 1) bs

/-! ### The updates of the state, one field group each -/

/-- The response of a command (R61). -/
def State.withRsp (s : State) (q : Option PortWord) : State := { s with rsp := q }

/-- The host's inputs. -/
def State.withHost (s : State) (h : List HostInput) : State := { s with host := h }

/-- New contents of `PBUF`. -/
def State.withPbuf (s : State) (m : Memory) : State := { s with pbuf := m }

/-- New contents of `CBUF`. -/
def State.withCbuf (s : State) (m : Memory) : State := { s with cbuf := m }

/-- A new `CLEN` (R25). -/
def State.withClen (s : State) (n : Word) : State := { s with clen := n }

/-- A new `PLEN` (R24). -/
def State.withPlen (s : State) (n : Word) : State := { s with plen := n }

/-- A new `COUNT` (R23). -/
def State.withCount (s : State) (n : Word) : State := { s with count := n }

/-- A new `PHASE` (R22). -/
def State.withPhase (s : State) (p : Phase) : State := { s with phase := p }

/-- A new context: `PHASE`, `WIDTH`, `COUNT` and `PLEN` together (00_scope.md, glossary: Context). -/
def State.withContext (s : State) (p : Phase) (w : BitVec 4) (c n : Word) : State :=
  { s with phase := p, width := w, count := c, plen := n }

/-! ### Bytes that become unspecified -/

/-- A memory of `n` free bytes, those of one draw. -/
def Memory.unspecified (n draw : Nat) : Memory :=
  Memory.writeRange [] 0 ((List.range n).map (Config.unspecifiedByte draw))

/-- Every byte of `PBUF` becomes unspecified (44_decoder_commands.md R180, R32). Free values (log 6). -/
def State.losePacked (s : State) : State :=
  { s with pbuf := Memory.unspecified s.cfg.pbufBytes s.draws, draws := s.draws + 1 }

/-- Every byte of `CBUF` becomes unspecified (R32). Free values (log 6). -/
def State.loseCompressed (s : State) : State :=
  { s with cbuf := Memory.unspecified s.cfg.cbufBytes s.draws, draws := s.draws + 1 }

/-! ### Reading and writing the buffers -/

/-- `PBUF[a]` (R40, R41). -/
def State.readPacked (s : State) (a : Nat) : Except Fault Byte :=
  if a < s.cfg.pbufBytes then .ok (s.pbuf.read a) else .error (.packedAddress a)

/-- `PBUF[a] <- b` (R40, R41). The other bytes stay as they were, those at or above `PLEN` by choice
(log 17). -/
def State.writePacked (s : State) (a : Nat) (b : Byte) : Except Fault State :=
  if a < s.cfg.pbufBytes then .ok (s.withPbuf (s.pbuf.write a b)) else .error (.packedAddress a)

/-- `PBUF[0..n)` (R41). -/
def State.packedBytes (s : State) (n : Nat) : Except Fault (List Byte) :=
  if n ≤ s.cfg.pbufBytes then .ok (s.pbuf.readRange 0 n) else .error (.packedAddress s.cfg.pbufBytes)

/-- `PBUF[k] <- d[k]` for every `k` from 0 upward (R41). The bytes from `|d|` on, which may be anything, stay
as they were: DESIGN CHOICE, unsafe (log 17). -/
def State.storePacked (s : State) (d : List Byte) : Except Fault State :=
  if d.length ≤ s.cfg.pbufBytes then .ok (s.withPbuf (s.pbuf.writeRange 0 d))
  else .error (.packedAddress s.cfg.pbufBytes)

/-- `CBUF[a]` (R40, R42). -/
def State.readCompressed (s : State) (a : Nat) : Except Fault Byte :=
  if a < s.cfg.cbufBytes then .ok (s.cbuf.read a) else .error (.compressedAddress a)

/-- `CBUF[a] <- b` (R40, R42). The other bytes stay as they were, those at or above `CLEN` by choice
(log 17). -/
def State.writeCompressed (s : State) (a : Nat) (b : Byte) : Except Fault State :=
  if a < s.cfg.cbufBytes then .ok (s.withCbuf (s.cbuf.write a b)) else .error (.compressedAddress a)

/-- `CBUF[0..n)` (R42). -/
def State.compressedBytes (s : State) (n : Nat) : Except Fault (List Byte) :=
  if n ≤ s.cfg.cbufBytes then .ok (s.cbuf.readRange 0 n) else .error (.compressedAddress s.cfg.cbufBytes)

/-- `CBUF[k] <- d[k]` for every `k` from 0 upward (R42). The bytes from `|d|` on, which may be anything, stay
as they were: DESIGN CHOICE, unsafe (log 17). -/
def State.storeCompressed (s : State) (d : List Byte) : Except Fault State :=
  if d.length ≤ s.cfg.cbufBytes then .ok (s.withCbuf (s.cbuf.writeRange 0 d))
  else .error (.compressedAddress s.cfg.cbufBytes)

/-- Goes on with the value of a buffer access, or stops with its fault. -/
def attempt {α : Type} (r : Except Fault α) (k : α → Result) : Result :=
  match r with
  | .ok a => k a
  | .error f => .fault f

/-! ### Ending a command -/

/-- `respond(st, res)` (00_scope.md R14, R61): the command ends and its response is at the port. -/
def respond (st : Status) (res : Word) (s : State) : Result :=
  .next (s.withRsp (some (responseWord st res)))

/-- `raise E` (R14): the block's whole exception entry (R225). The response carries the code of the error
and result 0; nothing is saved and control goes nowhere. There is no return from it (R228): the block is
ready for the next command. -/
def raise (e : Status) (s : State) : Result := respond e 0 s

/-- A word with a reserved opcode or a reserved bit (45_system_commands.md R192, R193). -/
def illegalCommand (s : State) : Result := raise .illegalCommand s

/-! ### Reset -/

/-- All five registers at their reset values (R32, R190). The bytes of the buffers are not written; they
become unobservable (R190; log 7). -/
def State.resetRegisters (s : State) : State := (s.withContext .idle 0 0 0).withClen 0

/-- The reset input (R240): the reset state, and no response for a command it abandons. The bytes of both
buffers are unspecified after it (R32, R241): free values (log 6). -/
def hardReset (s : State) : Result :=
  .next (s.resetRegisters.losePacked.loseCompressed.withRsp none)

/-! ### The host's next input -/

/-- What the block finds at its port, and the state with that input taken. -/
inductive Fetched where
  /-- no input: the block is idle -/
  | nothing
  /-- the reset input is asserted -/
  | reset (s : State)
  /-- a command word is accepted -/
  | command (w : PortWord) (s : State)
  deriving DecidableEq, Repr

/-- Takes the host's next input (20_memory.md R52, R53). -/
def fetch (s : State) : Fetched :=
  match s.host with
  | [] => .nothing
  | .reset _ :: h => .reset (s.withHost h)
  | .command w :: h => .command w (s.withHost h)

/-- No command is presented: the block is idle and holds its state (60_exceptions.md R230). -/
def idle (s : State) : Result := .next s

end Sys2Proof.Machine
end

