-- ==== Sys2Proof/Machine/Buffers.lean ====
section
/-! DEFINITION. The commands on the two buffers: `CCLR`, `CPUT`, `CLEN`, `CGET` (42_compress.md) and `PLEN`,
`PGET` (40_bitpacker.md). -/

namespace Sys2Proof.Machine

/-- `CCLR` (R158). -/
def execCclr (s : State) : Result := respond .ok 0 (s.withClen 0)

/-- `CPUT b` (R159). -/
def execCput (b : Byte) (s : State) : Result :=
  if s.clen.toNat = s.cfg.cbufBytes then raise .capacityExceeded s
  else attempt (s.writeCompressed s.clen.toNat b) fun t => respond .ok 0 (t.withClen (t.clen + 1))

/-- `CLEN`, the command (R160). -/
def execClen (s : State) : Result := respond .ok s.clen s

/-- `CGET a` (R161). -/
def execCget (a : Word) (s : State) : Result :=
  if s.clen.toNat ≤ operandNat a then raise .indexOutOfBounds s
  else attempt (s.readCompressed (operandNat a)) fun b => respond .ok (zext32 b) s

/-- `PLEN`, the command (R90). -/
def execPlen (s : State) : Result := respond .ok s.plen s

/-- `PGET a` (R91). -/
def execPget (a : Word) (s : State) : Result :=
  if s.plen.toNat ≤ operandNat a then raise .indexOutOfBounds s
  else attempt (s.readPacked (operandNat a)) fun b => respond .ok (zext32 b) s

end Sys2Proof.Machine
end

