-- ==== Sys2Proof/Machine/BitPacker.lean ====
section
/-! DEFINITION. The packing functions of 40_bitpacker.md: `PackedLen` (R80), `Cap` (R85), `Pack` (R81, R84),
`UnpackOne` (R86), over byte sequences and natural numbers. -/

namespace Sys2Proof.Machine

/-- `PackedLen(n, w) = (n × w + 7) div 8` (R80). -/
def packedLen (n w : Nat) : Nat := (n * w + 7) / 8

/-- `Cap(m, w) = (8 × m) div w` (R85). -/
def cap (m w : Nat) : Nat := (8 * m) / w

/-- The loop of `Pack` (R81) from code number `i` on: each code is or-ed into its byte at its shift. -/
def packFrom (w : Nat) : Nat → List Nat → List Byte → List Byte
  | _, [], out => out
  | i, c :: cs, out =>
    packFrom w (i + 1) cs (out.modify (i * w / 8) fun b => b ||| BitVec.ofNat 8 (c <<< (i * w % 8)))

/-- `Pack(codes, w)` (R81): `ValueOutOfRange` when some code is not below `2^w` (R84). -/
def pack (codes : List Nat) (w : Nat) : Except Status (List Byte) :=
  if codes.any fun c => decide (2 ^ w ≤ c) then .error .valueOutOfRange
  else .ok (packFrom w 0 codes (List.replicate (packedLen codes.length w) 0))

/-- The lane at shift `s` of a byte: `(b >> s) & (2^w − 1)` (R82, R86). -/
def lane (b : Byte) (s w : Nat) : Byte := (b >>> s) &&& BitVec.ofNat 8 (2 ^ w - 1)

/-- `UnpackOne(buf, w, index)` (R86). -/
def unpackOne (buf : List Byte) (w index : Nat) : Except Status Byte :=
  if cap buf.length w ≤ index then .error .indexOutOfBounds
  else
    match buf[index * w / 8]? with
    | some b => .ok (lane b (index * w % 8) w)
    | none => .error .indexOutOfBounds

end Sys2Proof.Machine
end

