-- ==== Sys2Proof/Machine/Inflate.lean ====
section
/-! DEFINITION. The decompressor `Inflate` of 41_inflate.md: zlib container, DEFLATE blocks, Adler-32, the
limit. A pure function of a byte sequence and a limit (R101); its working variables are not machine state
(10_state.md R31). -/

namespace Sys2Proof.Machine

/-- The two errors of `Inflate` (R101). -/
inductive InflateError where
  | corruptData
  | decompressionLimitExceeded
  deriving DecidableEq, Repr

/-- The status an error of `Inflate` passes through as (60_exceptions.md R231). -/
def InflateError.status : InflateError → Status
  | .corruptData => .corruptData
  | .decompressionLimitExceeded => .decompressionLimitExceeded

/-- The working variables of R101: the bit position `pos`, the bits of the stream from `pos` on, and the
output. Keeping the bits still to be read instead of the stream is DEDUCED from R102 (log 13). -/
structure Work where
  pos : Nat
  rest : List Bool
  out : List Byte
  deriving DecidableEq, Repr

/-- What a part of `Inflate` answers: a value, or the error raised (R101). -/
abbrev Inf := Except InflateError

/-! ### Reading bits -/

/-- The bits of a byte, least significant first (R102). -/
def byteBits (b : Byte) : List Bool := (List.range 8).map b.getLsbD

/-- The stream as a string of bits: bit `k` is bit `k mod 8` of byte `k div 8` (R102, 20_memory.md R46). -/
def streamBits (c : List Byte) : List Bool := c.flatMap byteBits

/-- `NextBit()` (R102). -/
def nextBit (k : Work) : Inf (Nat × Work) :=
  match k.rest with
  | [] => .error .corruptData
  | v :: r => .ok (v.toNat, { k with pos := k.pos + 1, rest := r })

/-- `Bits(n)` (R103): the first bit read is the least significant. -/
def readBits : Nat → Work → Inf (Nat × Work)
  | 0, k => .ok (0, k)
  | n + 1, k => do
    let (b, k) ← nextBit k
    let (v, k) ← readBits n k
    .ok (b + 2 * v, k)

/-- `AlignByte()` (R104): `pos <- 8 × ceil(pos / 8)`. -/
def alignByte (k : Work) : Work :=
  let p := 8 * ((k.pos + 7) / 8)
  { k with pos := p, rest := k.rest.drop (p - k.pos) }

/-! ### Header -/

/-- `ReadHeader()` with its checks in order (R105, R106). `FLEVEL` is ignored, and so is `CINFO` beyond
its check (R133). -/
def readHeader (k : Work) : Inf Work := do
  let (cmf, k) ← readBits 8 k
  let (flg, k) ← readBits 8 k
  if cmf % 16 ≠ 8 then .error .corruptData
  else if cmf / 16 > 7 then .error .corruptData
  else if (256 * cmf + flg) % 31 ≠ 0 then .error .corruptData
  else if flg / 32 % 2 = 1 then .error .corruptData
  else .ok k

/-! ### Output and the limit -/

/-- `Emit(b)` (R107). -/
def emit (limit : Nat) (b : Byte) (k : Work) : Inf Work :=
  if k.out.length = limit then .error .decompressionLimitExceeded
  else .ok { k with out := k.out ++ [b] }

/-! ### Stored blocks -/

/-- The bytes of a stored block: each is read first and the limit checked second (R110). -/
def storedBytes (limit : Nat) : Nat → Work → Inf Work
  | 0, k => .ok k
  | n + 1, k => do
    let (b, k) ← readBits 8 k
    let k ← emit limit (BitVec.ofNat 8 b) k
    storedBytes limit n k

/-- `StoredBlock()` (R110). -/
def storedBlock (limit : Nat) (k : Work) : Inf Work := do
  let (len, k) ← readBits 16 (alignByte k)
  let (nlen, k) ← readBits 16 k
  if len ^^^ nlen ≠ 0xFFFF then .error .corruptData
  else storedBytes limit len k

/-! ### Huffman codes -/

/-- One code of a code-length array: symbol, length, value (R111). -/
structure HuffmanCode where
  sym : Nat
  len : Nat
  code : Nat
  deriving DecidableEq, Repr

/-- `count[b]` of R111, with `count[0] = 0`. -/
def lengthCount (lens : List Nat) (b : Nat) : Nat := if b = 0 then 0 else lens.count b

/-- `next[b]` of R111 before any symbol has its code: `code <- (code + count[b − 1]) << 1`. -/
def firstCode (lens : List Nat) : Nat → Nat
  | 0 => 0
  | b + 1 => (firstCode lens b + lengthCount lens b) <<< 1

/-- The second loop of `AssignCodes` (R111), from symbol `s` on, `next` being the array of the next code of
each length. -/
def assignFrom : List Nat → Nat → List Nat → List HuffmanCode
  | _, _, [] => []
  | next, s, l :: ls =>
    if l = 0 then assignFrom next (s + 1) ls
    else ⟨s, l, next.getD l 0⟩ :: assignFrom (next.set l (next.getD l 0 + 1)) (s + 1) ls

/-- `AssignCodes(len)` (R111). -/
def assignCodes (lens : List Nat) : List HuffmanCode :=
  assignFrom ((List.range 16).map (firstCode lens)) 0 lens

/-- `K` of R112: the sum of `2^(15 − len[s])` over the symbols that have a code. -/
def kraftSum (lens : List Nat) : Nat :=
  (lens.map fun l => if l = 0 then 0 else 2 ^ (15 - l)).sum

/-- The array is over-subscribed (R112). -/
def overSubscribed (lens : List Nat) : Bool := 2 ^ 15 < kraftSum lens

/-- The array is incomplete (R112). -/
def incomplete (lens : List Nat) : Bool := kraftSum lens < 2 ^ 15

/-- The array has exactly one non-zero length and that length is 1 (R119). -/
def singleCode (lens : List Nat) : Bool := lens.filter (· ≠ 0) == [1]

/-- The array has no non-zero length (R119). -/
def noCode (lens : List Nat) : Bool := lens.all (· == 0)

/-- The loop of `DecodeSym` (R113): `n` lengths are left, the next is `b`, `code` has been read so far. -/
def decodeSymFrom (t : List HuffmanCode) : Nat → Nat → Nat → Work → Inf (Nat × Work)
  | 0, _, _, _ => .error .corruptData
  | n + 1, b, code, k => do
    let (v, k) ← nextBit k
    match (t.filter fun e => e.len == b).find? fun e => e.code == 2 * code + v with
    | some e => .ok (e.sym, k)
    | none => decodeSymFrom t n (b + 1) (2 * code + v) k

/-- `DecodeSym(T)` (R113): the first bit read is the top bit of the code, at most 15 bits. -/
def decodeSym (t : List HuffmanCode) (k : Work) : Inf (Nat × Work) := decodeSymFrom t 15 1 0 k

/-- The code lengths of `FixedLitLen` (R114). -/
def fixedLitLenLengths : List Nat :=
  List.replicate 144 8 ++ List.replicate 112 9 ++ List.replicate 24 7 ++ List.replicate 8 8

/-- `FixedLitLen` (R114). -/
def fixedLitLen : List HuffmanCode := assignCodes fixedLitLenLengths

/-- `FixedDist` (R115). -/
def fixedDist : List HuffmanCode := assignCodes (List.replicate 32 5)

/-! ### Dynamic tables -/

/-- The order in which the lengths of the code-length code come (R117). -/
def clOrder : List Nat := [16, 17, 18, 0, 8, 7, 9, 6, 10, 5, 11, 4, 12, 3, 13, 2, 14, 1, 15]

/-- The loop that reads the lengths of the code-length code, for the symbols given in order (R117). -/
def readClLengths : List Nat → List Nat → Work → Inf (List Nat × Work)
  | [], cl, k => .ok (cl, k)
  | s :: ss, cl, k => do
    let (l, k) ← readBits 3 k
    readClLengths ss (cl.set s l) k

/-- The repeat symbols 16, 17, 18 of R118: the value to repeat and how often. -/
def readRepeat (s : Nat) (ls : List Nat) (k : Work) : Inf ((Nat × Nat) × Work) :=
  if s = 16 then
    match ls.getLast? with
    | none => .error .corruptData
    | some v => do
      let (r, k) ← readBits 2 k
      .ok ((v, 3 + r), k)
  else if s = 17 then do
    let (r, k) ← readBits 3 k
    .ok ((0, 3 + r), k)
  else do
    let (r, k) ← readBits 7 k
    .ok ((0, 11 + r), k)

/-- The loop of R118 until `total` lengths are read. Every iteration adds a length, so `total` iterations
are enough. DEDUCED (log 12). -/
def readLengths (cl : List HuffmanCode) (total : Nat) : Nat → List Nat → Work → Inf (List Nat × Work)
  | fuel, ls, k =>
    if total ≤ ls.length then .ok (ls, k)
    else
      match fuel with
      | 0 => .error .corruptData
      | fuel + 1 => do
        let (s, k) ← decodeSym cl k
        if s ≤ 15 then readLengths cl total fuel (ls ++ [s]) k
        else
          let ((v, r), k) ← readRepeat s ls k
          if ls.length + r > total then .error .corruptData
          else readLengths cl total fuel (ls ++ List.replicate r v) k

/-- The five checks of R119 on the two arrays. -/
def tablesAccepted (litlen dist : List Nat) : Bool :=
  litlen.getD 256 0 != 0 &&
  !overSubscribed litlen &&
  (!incomplete litlen || singleCode litlen) &&
  !overSubscribed dist &&
  (!incomplete dist || noCode dist || singleCode dist)

/-- `ReadDynamicTables()` (R116 to R119). -/
def readDynamicTables (k : Work) : Inf ((List HuffmanCode × List HuffmanCode) × Work) := do
  let (a, k) ← readBits 5 k
  let (b, k) ← readBits 5 k
  let (c, k) ← readBits 4 k
  let hlit := a + 257
  let hdist := b + 1
  let hclen := c + 4
  if hlit > 286 ∨ hdist > 30 then .error .corruptData
  else
    let (cl, k) ← readClLengths (clOrder.take hclen) (List.replicate 19 0) k
    if overSubscribed cl || incomplete cl then .error .corruptData
    else
      let (ls, k) ← readLengths (assignCodes cl) (hlit + hdist) (hlit + hdist) [] k
      let litlen := ls.take hlit
      let dist := ls.drop hlit
      if tablesAccepted litlen dist then .ok ((assignCodes litlen, assignCodes dist), k)
      else .error .corruptData

/-! ### Compressed data -/

/-- `LBASE` (R121). -/
def lengthBase : List Nat :=
  [3, 4, 5, 6, 7, 8, 9, 10, 11, 13, 15, 17, 19, 23, 27, 31, 35, 43, 51, 59, 67, 83, 99, 115, 131, 163,
   195, 227, 258]

/-- `LEXT` (R121). -/
def lengthExtra : List Nat :=
  [0, 0, 0, 0, 0, 0, 0, 0, 1, 1, 1, 1, 2, 2, 2, 2, 3, 3, 3, 3, 4, 4, 4, 4, 5, 5, 5, 5, 0]

/-- `DBASE` (R122). -/
def distBase : List Nat :=
  [1, 2, 3, 4, 5, 7, 9, 13, 17, 25, 33, 49, 65, 97, 129, 193, 257, 385, 513, 769, 1025, 1537, 2049, 3073,
   4097, 6145, 8193, 12289, 16385, 24577]

/-- `DEXT` (R122). -/
def distExtra : List Nat :=
  [0, 0, 0, 0, 1, 1, 2, 2, 3, 3, 4, 4, 5, 5, 6, 6, 7, 7, 8, 8, 9, 9, 10, 10, 11, 11, 12, 12, 13, 13]

/-- `Copy(L, D)` (R123): `L` bytes, each the one `D` before the end of the output when it is appended. -/
def copyMatch (limit d : Nat) : Nat → Work → Inf Work
  | 0, k => .ok k
  | n + 1, k =>
    match k.out[k.out.length - d]? with
    | none => .error .corruptData
    | some b => do
      let k ← emit limit b k
      copyMatch limit d n k

/-- A length and distance pair whose length symbol is `s` (R120 to R125). -/
def readMatch (dist : List HuffmanCode) (limit s : Nat) (k : Work) : Inf Work :=
  if s > 285 then .error .corruptData
  else do
    let (x, k) ← readBits (lengthExtra.getD (s - 257) 0) k
    let (d, k) ← decodeSym dist k
    if d > 29 then .error .corruptData
    else
      let (y, k) ← readBits (distExtra.getD d 0) k
      if distBase.getD d 0 + y > k.out.length then .error .corruptData
      else copyMatch limit (distBase.getD d 0 + y) (lengthBase.getD (s - 257) 0 + x) k

/-- `HuffmanData(lit, dist)` (R120). Every iteration reads a bit, so the loop ends within the fuel of R131
(log 12). -/
def huffmanData (lit dist : List HuffmanCode) (limit : Nat) : Nat → Work → Inf Work
  | 0, _ => .error .corruptData
  | fuel + 1, k => do
    let (s, k) ← decodeSym lit k
    if s < 256 then
      let k ← emit limit (BitVec.ofNat 8 s) k
      huffmanData lit dist limit fuel k
    else if s = 256 then .ok k
    else
      let k ← readMatch dist limit s k
      huffmanData lit dist limit fuel k

/-! ### Blocks -/

/-- `ReadBlock()` (R108, R109): the final-block flag and the work after the block. -/
def readBlock (fuel limit : Nat) (k : Work) : Inf (Nat × Work) := do
  let (final, k) ← readBits 1 k
  let (btype, k) ← readBits 2 k
  if btype = 0 then
    let k ← storedBlock limit k
    .ok (final, k)
  else if btype = 1 then
    let k ← huffmanData fixedLitLen fixedDist limit fuel k
    .ok (final, k)
  else if btype = 2 then
    let ((lit, dist), k) ← readDynamicTables k
    let k ← huffmanData lit dist limit fuel k
    .ok (final, k)
  else .error .corruptData

/-- The blocks up to the final one (R101), at most `n` of them (log 12). -/
def readBlocks (fuel limit : Nat) : Nat → Work → Inf Work
  | 0, _ => .error .corruptData
  | n + 1, k => do
    let (final, k) ← readBlock fuel limit k
    if final = 1 then .ok k else readBlocks fuel limit n k

/-! ### Trailer -/

/-- One byte of `Adler32` (R127): the two sums after it. -/
def adlerStep (s : Nat × Nat) (b : Byte) : Nat × Nat :=
  let s1 := (s.1 + b.toNat) % 65521
  (s1, (s.2 + s1) % 65521)

/-- `Adler32(d)` (R127). -/
def adler32 (d : List Byte) : Nat :=
  let s := d.foldl adlerStep (1, 0)
  s.2 <<< 16 ||| s.1

/-- `n` bytes as one number, the most significant byte first (R126). -/
def readBigEndian : Nat → Nat → Work → Inf (Nat × Work)
  | 0, a, k => .ok (a, k)
  | n + 1, a, k => do
    let (b, k) ← readBits 8 k
    readBigEndian n (a <<< 8 ||| b) k

/-- `ReadTrailer()` (R126, R128): the check value of the output, and nothing after it. -/
def readTrailer (k : Work) : Inf Work := do
  let (a, k) ← readBigEndian 4 0 (alignByte k)
  if a ≠ adler32 k.out then .error .corruptData
  else if k.rest ≠ [] then .error .corruptData
  else .ok k

/-! ### The whole -/

/-- `Inflate` with the given fuel in each of its open-ended loops (R101). -/
def inflateWith (fuel : Nat) (c : List Byte) (limit : Nat) : Inf (List Byte) := do
  let k ← readHeader { pos := 0, rest := streamBits c, out := [] }
  let k ← readBlocks fuel limit fuel k
  let k ← readTrailer k
  .ok k.out

/-- `Inflate(c, limit)` (R101), with the fuel R131 says is never spent. DEDUCED (log 12). -/
def inflate (c : List Byte) (limit : Nat) : Inf (List Byte) :=
  inflateWith (8 * c.length + limit + 2) c limit

end Sys2Proof.Machine
end

