-- ==== Sys2Proof/Machine/Compress.lean ====
section
/-! DEFINITION. The compressor of a block (42_compress.md R150 to R155): the reference kernel `CompressRef`, and
the choice of the block's kernel. -/

namespace Sys2Proof.Machine

/-- The `n` bits of `v`, most significant first (R155). -/
def msbFirst (n v : Nat) : List Bool := (List.range n).reverse.map v.testBit

/-- The bits of one literal: 8 bits of `0x30 + x` up to 143, 9 bits of `0x190 + x − 144` from there on
(R155, 41_inflate.md R114). -/
def literalBits (x : Byte) : List Bool :=
  if x.toNat ≤ 143 then msbFirst 8 (0x30 + x.toNat) else msbFirst 9 (0x190 + x.toNat - 144)

/-- Zero bits until the length is a multiple of 8 (R155). -/
def padToByte (bs : List Bool) : List Bool :=
  bs ++ List.replicate ((8 - bs.length % 8) % 8) false

/-- Eight bits as a byte, bit 0 first (R155). -/
def byteOfBits (bs : List Bool) : Byte :=
  BitVec.ofNat 8 (bs.foldr (fun b v => b.toNat + 2 * v) 0)

/-- A bit string cut into bytes: stream bit `k` is bit `k mod 8` of byte `k div 8` (R155). -/
def bytesOfBits : List Bool → List Byte
  | b0 :: b1 :: b2 :: b3 :: b4 :: b5 :: b6 :: b7 :: bs =>
    byteOfBits [b0, b1, b2, b3, b4, b5, b6, b7] :: bytesOfBits bs
  | _ => []

/-- The bit string of the one block: `BFINAL` = 1, `BTYPE` = 1, the literals, symbol 256 (R155). -/
def blockBits (b : List Byte) : List Bool :=
  [true, true, false] ++ b.flatMap literalBits ++ List.replicate 7 false

/-- The four bytes of a number, most significant first (R155). -/
def bigEndian32 (a : Nat) : List Byte :=
  [BitVec.ofNat 8 (a >>> 24), BitVec.ofNat 8 (a >>> 16), BitVec.ofNat 8 (a >>> 8), BitVec.ofNat 8 a]

/-- `CompressRef(b)` (R155). -/
def compressRef (b : List Byte) : List Byte :=
  [0x78, 0xDA] ++ bytesOfBits (padToByte (blockBits b)) ++ bigEndian32 (adler32 b)

/-- `Compress` of the block (00_scope.md R7, R151, R153): its kernel, a total function. -/
def compress (cfg : Config) (b : List Byte) : List Byte :=
  match cfg.kernel with
  | .reference => compressRef b
  | .other k => Config.otherCompress k b

end Sys2Proof.Machine
end

