-- ==== Sys2Proof/Machine/Builder.lean ====
section
/-! DEFINITION. The builder commands `BNEW`, `BADD`, `BFIN`, `BCNT` (43_builder_commands.md). -/

namespace Sys2Proof.Machine

/-- `BNEW w` (R170). -/
def execBnew (w : Word) (s : State) : Result :=
  if legalWidth w then respond .ok 0 (s.withContext .opened (widthOf w) 0 0)
  else raise .invalidBitWidth s

/-- The bit offset at which the next code goes: `COUNT × WIDTH` (R171). -/
def State.appendOffset (s : State) : Nat := s.count.toNat * s.width.toNat

/-- `BADD c` (R171): the checks of the phase, of the value and of the capacity, in this order. -/
def execBadd (c : Word) (s : State) : Result :=
  if s.phase = .idle ∨ s.phase = .dec then raise .illegalState s
  else if s.phase = .built then raise .builderAlreadyFinalized s
  else if 2 ^ s.width.toNat ≤ operandNat c then raise .valueOutOfRange s
  else
    let j := s.appendOffset / 8
    let sh := s.appendOffset % 8
    if sh = 0 then
      if j = s.cfg.pbufBytes then raise .capacityExceeded s
      else
        attempt (s.writePacked j (BitVec.ofNat 8 (operandNat c))) fun t =>
          respond .ok 0 ((t.withPlen (t.plen + 1)).withCount (t.count + 1))
    else
      attempt (s.readPacked j) fun b =>
        attempt (s.writePacked j (b ||| BitVec.ofNat 8 (operandNat c <<< sh))) fun t =>
          respond .ok 0 (t.withCount (t.count + 1))

/-- `BFIN` (R172). -/
def execBfin (s : State) : Result :=
  if s.phase = .idle ∨ s.phase = .dec then raise .illegalState s
  else if s.phase = .built then raise .builderAlreadyFinalized s
  else
    attempt (s.packedBytes s.plen.toNat) fun b =>
      let z := compress s.cfg b
      if s.cfg.cbufBytes < z.length then raise .capacityExceeded s
      else
        attempt (s.storeCompressed z) fun t =>
          respond .ok (resultNat z.length) ((t.withClen (BitVec.ofNat 32 z.length)).withPhase .built)

/-- `BCNT` (R173). -/
def execBcnt (s : State) : Result :=
  if s.phase = .idle ∨ s.phase = .dec then raise .illegalState s
  else respond .ok s.count s

end Sys2Proof.Machine
end

