-- ==== Sys2Proof/Machine/Decoder.lean ====
section
/-! DEFINITION. The decoder commands `DNEW`, `GET`, `LEN` (44_decoder_commands.md). -/

namespace Sys2Proof.Machine

/-- `DNEW w` (R180). When the decompression fails the context is destroyed; the bytes of `PBUF` are then
unspecified and unobservable (93_implementation_defined.md section 1): free values (log 6). -/
def execDnew (w : Word) (s : State) : Result :=
  if legalWidth w then
    attempt (s.compressedBytes s.clen.toNat) fun c =>
      match inflate c s.cfg.maxExpanded with
      | .error e => raise e.status (s.losePacked.withContext .idle 0 0 0)
      | .ok out =>
        attempt (s.storePacked out) fun t =>
          respond .ok (resultNat out.length)
            (t.withContext .dec (widthOf w) 0 (BitVec.ofNat 32 out.length))
  else raise .invalidBitWidth s

/-- `GET i` (R181): one byte is read and one lane of it answered. -/
def execGet (i : Word) (s : State) : Result :=
  if s.phase = .idle then raise .illegalState s
  else if cap s.plen.toNat s.width.toNat ≤ operandNat i then raise .indexOutOfBounds s
  else
    let off := operandNat i * s.width.toNat
    attempt (s.readPacked (off / 8)) fun b =>
      respond .ok (zext32 (lane b (off % 8) s.width.toNat)) s

/-- `LEN` (R182). -/
def execLen (s : State) : Result :=
  if s.phase = .idle then raise .illegalState s
  else respond .ok (resultNat (cap s.plen.toNat s.width.toNat)) s

end Sys2Proof.Machine
end

