-- ==== Sys2Proof/Machine/System.lean ====
section
/-! DEFINITION. The system commands `RST` and `STAT` (45_system_commands.md). -/

namespace Sys2Proof.Machine

/-- `RST` (R190). -/
def execRst (s : State) : Result := respond .ok 0 s.resetRegisters

/-- `STAT` (R191). -/
def execStat (s : State) : Result := respond .ok (statResult s.phase s.width) s

end Sys2Proof.Machine
end

