-- ==== Sys2Proof/Machine/Dispatch.lean ====
section
/-! DEFINITION. Which meaning each command has: one arm per row of the opcode map (30_encoding.md R67). -/

namespace Sys2Proof.Machine

def exec (i : Instr) (s : State) : Host.Outcome State Fault Refusal :=
  match i with
  | .rst => Sys2Proof.Machine.execRst s
  | .stat => Sys2Proof.Machine.execStat s
  | .bnew w => Sys2Proof.Machine.execBnew w s
  | .badd c => Sys2Proof.Machine.execBadd c s
  | .bfin => Sys2Proof.Machine.execBfin s
  | .bcnt => Sys2Proof.Machine.execBcnt s
  | .dnew w => Sys2Proof.Machine.execDnew w s
  | .get i' => Sys2Proof.Machine.execGet i' s
  | .len => Sys2Proof.Machine.execLen s
  | .cclr => Sys2Proof.Machine.execCclr s
  | .cput b => Sys2Proof.Machine.execCput b s
  | .clen => Sys2Proof.Machine.execClen s
  | .cget a => Sys2Proof.Machine.execCget a s
  | .plen => Sys2Proof.Machine.execPlen s
  | .pget a => Sys2Proof.Machine.execPget a s

end Sys2Proof.Machine
end

