-- ==== Sys2Proof/Machine/Step.lean ====
section
/-! DEFINITION. One step: the host's next input is taken and acted on (00_scope.md R16, R18), and how the host's
pipeline places one command word there. -/

namespace Sys2Proof.Machine

/-- One step. A command word is decoded and its command executed, or it is illegal and answered with
`IllegalCommand` (30_encoding.md R73); the reset input resets the block (70_reset_and_hazards.md R240); with
no input the block is idle (60_exceptions.md R230). -/
def step (s : State) : Host.Outcome State Fault Refusal :=
  match fetch s with
  | .nothing => idle s
  | .reset t => hardReset t
  | .command w t =>
    match decode w with
    | .ok i => exec i t
    | .error _ => illegalCommand t

/-- `s` with the command word whose low `nbits` bits are those of `w`, and whose other bits are 0, as the
host's next input: the block has no command memory (10_state.md R28), so this is the host presenting the
word (log 3). More than 64 bits are no command word (00_scope.md R18), and none is presented: the state is
as it was. DESIGN CHOICE, safe (log 15). -/
def State.withFetchWord (s : State) (nbits w : Nat) : State :=
  if 64 < nbits then s
  else s.withHost (.command (BitVec.ofNat 64 (w % 2 ^ nbits)) :: s.host)

end Sys2Proof.Machine
end

