-- ==== Sys2Proof/Safety.lean ====
section
/-! DEFINITION. What claims are stated in: the invariants of 10_state.md R30, states that differ only in bytes no
command can observe (R26, R27), what a compressor owes (42_compress.md R150), and command sequences. -/

namespace Sys2Proof.Machine

/-- The PackedBuffer of the context: `PBUF[0..PLEN)` (R24). -/
def State.packed (s : State) : List Byte := s.pbuf.readRange 0 s.plen.toNat

/-- The CompressedBuffer: `CBUF[0..CLEN)` (R25). -/
def State.compressed (s : State) : List Byte := s.cbuf.readRange 0 s.clen.toNat

/-- A builder exists: `PHASE` is `OPEN` or `BUILT`. -/
def State.hasBuilder (s : State) : Prop := s.phase = .opened ∨ s.phase = .built

/-- `codes` are the codes of the builder (R30 I6): as many as `COUNT` says, each below `2^WIDTH`, and the
PackedBuffer is their packing. -/
def State.holdsCodes (s : State) (codes : List Nat) : Prop :=
  codes.length = s.count.toNat ∧ (∀ c ∈ codes, c < 2 ^ s.width.toNat) ∧
  pack codes s.width.toNat = .ok s.packed

/-- A memory lists only addresses below `n`. -/
def Memory.within (n : Nat) (m : Memory) : Bool := m.all fun c => decide (c.1 < n)

/-- The invariants of R30, with what the model adds: the parameters meet R6, and the two memories are in
canonical form and hold only bytes that exist (20_memory.md R40). -/
structure Invariants (s : State) : Prop where
  params : s.cfg.wf
  pbufForm : s.pbuf.wf = true
  cbufForm : s.cbuf.wf = true
  pbufWithin : s.pbuf.within s.cfg.pbufBytes = true
  cbufWithin : s.cbuf.within s.cfg.cbufBytes = true
  i1 : s.phase = .idle ↔ s.width = 0
  i2 : s.phase ≠ .idle → s.width = 1 ∨ s.width = 2 ∨ s.width = 4 ∨ s.width = 8
  i3 : s.phase = .idle ∨ s.phase = .dec → s.count = 0
  i4 : s.phase = .idle → s.plen = 0
  i5 : s.hasBuilder → s.plen.toNat = packedLen s.count.toNat s.width.toNat
  i6 : s.hasBuilder → ∃ codes, s.holdsCodes codes
  i7 : s.phase = .dec → s.plen.toNat ≤ s.cfg.maxExpanded
  i8 : s.plen.toNat ≤ s.cfg.pbufBytes ∧ s.clen.toNat ≤ s.cfg.cbufBytes

/-- Two states that differ at most in bytes of `PBUF` at or above `PLEN` and of `CBUF` at or above `CLEN`,
which have no architected value (R26, R27), and in the model's number of draws of free bytes (log 6). -/
structure SameVisible (s t : State) : Prop where
  phase : t.phase = s.phase
  width : t.width = s.width
  count : t.count = s.count
  plen : t.plen = s.plen
  clen : t.clen = s.clen
  cfg : t.cfg = s.cfg
  host : t.host = s.host
  rsp : t.rsp = s.rsp
  pbuf : ∀ a, a < s.plen.toNat → t.pbuf.read a = s.pbuf.read a
  cbuf : ∀ a, a < s.clen.toNat → t.cbuf.read a = s.cbuf.read a

/-- The compressor of a block is lossless (42_compress.md R150): all that a proof may assume of a kernel
that is not the reference one (log 2). -/
def CompressLossless (cfg : Config) : Prop :=
  ∀ b : List Byte, b.length ≤ cfg.pbufBytes → ∀ limit, b.length ≤ limit →
    inflate (compress cfg b) limit = .ok b

/-- `w ∈ {1, 2, 4, 8}` (00_scope.md R5). -/
abbrev LegalWidth (w : Word) : Prop := w = 1 ∨ w = 2 ∨ w = 4 ∨ w = 8

/-- The command completes and its response has the given status and result (30_encoding.md R61). -/
def Answers (i : Instr) (s : State) (st : Status) (r : Word) : Prop :=
  ∃ t, exec i s = .next t ∧ t.rsp = some (responseWord st r)

/-- A word in one of the three formats with an opcode of that format (30_encoding.md R62, R63, R64, R67):
format N with `ARG` 0, format V, format B with `ARG[31:8]` 0, and `RSV` 0 in each. -/
def LegalForm (w : PortWord) : Prop :=
  w.extractLsb' 32 24 = 0 ∧
  ((w.extractLsb' 56 8 ∈ [(0x01 : BitVec 8), 0x02, 0x12, 0x13, 0x22, 0x30, 0x32, 0x40] ∧
      w.extractLsb' 0 32 = 0) ∨
    w.extractLsb' 56 8 ∈ [(0x10 : BitVec 8), 0x11, 0x20, 0x21, 0x33, 0x41] ∨
    (w.extractLsb' 56 8 = 0x31 ∧ w.extractLsb' 8 24 = 0))

/-- The commands of a list, one after another, up to the first stop. -/
def execAll : List Instr → State → Result
  | [], s => .next s
  | i :: is, s =>
    match exec i s with
    | .next t => execAll is t
    | .fault f => .fault f
    | .refused r => .refused r

end Sys2Proof.Machine
end

