-- ==== Sys2Proof/Certificates/Slice0/Obligations.lean ====
section
/-! DEFINITION. The statements for the provers, from the numbered rules of spec/. -/

open Sys2Proof Sys2Proof.Machine

/-! ### Encoding -/

/-- The fifteen words 30_encoding.md R67 writes out, with every operand `v` or `b`, and words R68 and R69
call illegal. -/
def Obligations.OpcodeMapWordsDecode : Prop :=
  decode 0x0100000000000000 = .ok .rst ∧
  decode 0x0200000000000000 = .ok .stat ∧
  (∀ v : Word, decode ((0x10000000 : BitVec 32) ++ v) = .ok (.bnew v)) ∧
  (∀ v : Word, decode ((0x11000000 : BitVec 32) ++ v) = .ok (.badd v)) ∧
  decode 0x1200000000000000 = .ok .bfin ∧
  decode 0x1300000000000000 = .ok .bcnt ∧
  (∀ v : Word, decode ((0x20000000 : BitVec 32) ++ v) = .ok (.dnew v)) ∧
  (∀ v : Word, decode ((0x21000000 : BitVec 32) ++ v) = .ok (.get v)) ∧
  decode 0x2200000000000000 = .ok .len ∧
  decode 0x3000000000000000 = .ok .cclr ∧
  (∀ b : Byte, decode ((0x31000000000000 : BitVec 56) ++ b) = .ok (.cput b)) ∧
  decode 0x3200000000000000 = .ok .clen ∧
  (∀ v : Word, decode ((0x33000000 : BitVec 32) ++ v) = .ok (.cget v)) ∧
  decode 0x4000000000000000 = .ok .plen ∧
  (∀ v : Word, decode ((0x41000000 : BitVec 32) ++ v) = .ok (.pget v)) ∧
  decode 0x0000000000000000 = .error .reservedOpcode ∧
  decode 0xFF00000000000000 = .error .reservedOpcode ∧
  decode 0x1100000100000001 = .error .reservedBits ∧
  decode 0x1200000000000001 = .error .operandNotZero ∧
  decode 0x3100000000000100 = .error .operandHighBits

/-- Every command, with every operand, is what its word decodes to (R60, R62, R63, R64, R67). -/
def Obligations.DecodeOfEncodeIsTheCommand : Prop :=
  ∀ i : Instr, decode (encode i) = .ok i

/-- Decode followed by encode is the identity on legal words, so two different words never decode to the
same command and operand (R73). -/
def Obligations.EncodeOfDecodeIsTheWord : Prop :=
  (∀ w i, decode w = .ok i → encode i = w) ∧
  (∀ v w i, decode v = .ok i → decode w = .ok i → v = w)

/-- The legal words are exactly those of the three formats with an opcode of the map (R62 to R64, R67 to
R70). -/
def Obligations.LegalWordsAreThoseOfTheFormats : Prop :=
  ∀ w : PortWord, (∃ i, decode w = .ok i) ↔ LegalForm w

/-! ### A step -/

/-- When the host presents a word that decodes to a command, the step is that command's execution on the
state with the word taken (20_memory.md R52, 30_encoding.md R73). -/
def Obligations.StepRunsTheDecodedCommand : Prop :=
  ∀ s w rest i, s.host = .command w :: rest → decode w = .ok i →
    step s = exec i { s with host := rest }

/-- A word with a reserved opcode or a reserved bit is answered with `IllegalCommand`, result 0, and writes
no state (45_system_commands.md R192, R193). -/
def Obligations.IllegalWordsAnswerIllegalCommand : Prop :=
  ∀ s w rest, s.host = .command w :: rest → ¬ LegalForm w →
    step s = .next { s with host := rest, rsp := some (responseWord .illegalCommand 0) }

/-- The reset input leaves the reset registers and no response, and a state no command can tell from the
one `RST` leaves but for the response (70_reset_and_hazards.md R240). That a reset during a command is one
input is log 9, that an absent response is `none` is log 4; the bytes of the buffers are free (log 6). -/
def Obligations.ResetInputLeavesResetState : Prop :=
  ∀ s x rest, s.host = .reset x :: rest →
    ∃ t u, step s = .next t ∧ exec .rst { s with host := rest } = .next u ∧
      SameVisible { u with rsp := none } t ∧
      t.phase = .idle ∧ t.width = 0 ∧ t.count = 0 ∧ t.plen = 0 ∧ t.clen = 0 ∧ t.rsp = none

/-- With no input from the host the block is idle and holds its state (60_exceptions.md R230; that a step
without input is a step is log 3). -/
def Obligations.IdleBlockHoldsItsState : Prop :=
  ∀ s : State, s.host = [] → step s = .next s

/-- Every command word, whatever its bits, gets one response word in the layout of 30_encoding.md R61: bits
55:32 are 0, the result is 0 with every error and for the commands that return no value. -/
def Obligations.EveryWordGetsOneResponse : Prop :=
  ∀ s w rest, Invariants s → s.host = .command w :: rest →
    ∃ t q, step s = .next t ∧ t.host = rest ∧ t.rsp = some q ∧
      q.extractLsb' 32 24 = 0 ∧
      (responseStatus q ≠ 0 → responseResult q = 0) ∧
      (∀ i, decode w = .ok i →
        (i = .rst ∨ i = .cclr ∨ (∃ v, i = .bnew v) ∨ (∃ c, i = .badd c) ∨ (∃ b, i = .cput b)) →
        responseResult q = 0)

/-- The number of each status (60_exceptions.md R211 to R221) and the place of the fields of a response
(30_encoding.md R61). -/
def Obligations.StatusNumbersAndPlaces : Prop :=
  responseWord .ok 0xFFFFFFFF = 0x00000000FFFFFFFF ∧
  responseWord .invalidBitWidth 0 = 0x0100000000000000 ∧
  responseWord .valueOutOfRange 0 = 0x0200000000000000 ∧
  responseWord .indexOutOfBounds 0 = 0x0300000000000000 ∧
  responseWord .builderAlreadyFinalized 0 = 0x0400000000000000 ∧
  responseWord .corruptData 0 = 0x0500000000000000 ∧
  responseWord .decompressionLimitExceeded 0 = 0x0600000000000000 ∧
  responseWord .malformedEncoding 0 = 0x0700000000000000 ∧
  responseWord .capacityExceeded 0 = 0x0800000000000000 ∧
  responseWord .illegalState 0 = 0x0900000000000000 ∧
  responseWord .illegalCommand 0 = 0x0A00000000000000

/-- Status codes 7 and 11 to 255 never appear (60_exceptions.md R218, R221). -/
def Obligations.ReservedStatusesNeverAppear : Prop :=
  ∀ s t w rest q, s.host = .command w :: rest → step s = .next t → t.rsp = some q →
    (responseStatus q).toNat ≤ 10 ∧ (responseStatus q).toNat ≠ 7

/-! ### Reset and invariants -/

/-- The registers after reset; whatever the bytes of the buffers are, no command can tell
(70_reset_and_hazards.md R241, 10_state.md R32). -/
def Obligations.ResetLeavesAnIdleBlock : Prop :=
  State.reset.phase = .idle ∧ State.reset.width = 0 ∧ State.reset.count = 0 ∧
  State.reset.plen = 0 ∧ State.reset.clen = 0 ∧
  ∀ p c, SameVisible State.reset { State.reset with pbuf := p, cbuf := c }

/-- The invariants hold after reset (10_state.md R30). The clauses on the parameters and on the form of the
two memories are the model's (log 1, 5). -/
def Obligations.InvariantsHoldAtReset : Prop :=
  Invariants State.reset

/-- Every step keeps the invariants (10_state.md R30). -/
def Obligations.StepKeepsTheInvariants : Prop :=
  ∀ s t, Invariants s → step s = .next t → Invariants t

/-- From a state that meets the invariants no step stops: there is no fault state, no stuck state, and no
access outside the buffers (00_scope.md R18). -/
def Obligations.InvariantStatesNeverStop : Prop :=
  ∀ s, Invariants s → ∃ t, step s = .next t

/-- Bytes at or above the lengths are unobservable: two states that meet the invariants and differ only there
answer alike and go on differing only there (10_state.md R26, R27). They may also differ in the model's number of draws (log 6). -/
def Obligations.BytesAboveTheLengthsAreHidden : Prop :=
  ∀ s t, Invariants s → Invariants t → SameVisible s t →
    ∃ s' t', step s = .next s' ∧ step t = .next t' ∧ SameVisible s' t'

/-- A command that answers with an error has no effect but its response, with the one exception of `DNEW`
failing while decompressing, which leaves the context destroyed and `CBUF` and `CLEN` unchanged
(60_exceptions.md R226, R216). -/
def Obligations.FailedCommandsHaveNoEffect : Prop :=
  ∀ i s t q, exec i s = .next t → t.rsp = some q → responseStatus q ≠ 0 →
    t = { s with rsp := some q } ∨
    ∃ w, i = .dnew w ∧ LegalWidth w ∧ t.phase = .idle ∧ t.width = 0 ∧ t.count = 0 ∧ t.plen = 0 ∧
      t.cbuf = s.cbuf ∧ t.clen = s.clen ∧ t.cfg = s.cfg ∧ t.host = s.host

/-- Reading has no side effect: the eight reading commands write no state, and the same one again answers
the same (20_memory.md R50). -/
def Obligations.ReadingHasNoSideEffect : Prop :=
  ∀ i s t, exec i s = .next t →
    ((∃ a, i = .cget a) ∨ (∃ a, i = .pget a) ∨ (∃ a, i = .get a) ∨
      i = .len ∨ i = .plen ∨ i = .clen ∨ i = .bcnt ∨ i = .stat) →
    t = { s with rsp := t.rsp } ∧ exec i t = .next t

/-- Which commands may write which state: the columns of the table of 10_state.md R34. For the commands not
named at `PBUF` and at `CBUF` this is the frame of the two memories. -/
def Obligations.OnlyTheListedCommandsWrite : Prop :=
  ∀ i s t, exec i s = .next t →
    (t.phase ≠ s.phase → i = .rst ∨ (∃ w, i = .bnew w) ∨ i = .bfin ∨ ∃ w, i = .dnew w) ∧
    (t.width ≠ s.width → i = .rst ∨ (∃ w, i = .bnew w) ∨ ∃ w, i = .dnew w) ∧
    (t.count ≠ s.count → i = .rst ∨ (∃ w, i = .bnew w) ∨ (∃ c, i = .badd c) ∨ ∃ w, i = .dnew w) ∧
    (t.plen ≠ s.plen → i = .rst ∨ (∃ w, i = .bnew w) ∨ (∃ c, i = .badd c) ∨ ∃ w, i = .dnew w) ∧
    (t.clen ≠ s.clen → i = .rst ∨ i = .bfin ∨ i = .cclr ∨ ∃ b, i = .cput b) ∧
    (t.pbuf ≠ s.pbuf → (∃ c, i = .badd c) ∨ ∃ w, i = .dnew w) ∧
    (t.cbuf ≠ s.cbuf → i = .bfin ∨ ∃ b, i = .cput b) ∧
    t.cfg = s.cfg ∧ t.host = s.host

/-- The bytes the four storing commands leave alone, at the addresses they store to (20_memory.md R41, R42):
`BADD` the byte `(COUNT × WIDTH) div 8`, `BFIN` the bytes below the length of its output, `CPUT` the byte
`CLEN`, `DNEW` the bytes below the length of its output. That the bytes at or above the new length stay as
they were is the model's choice (log 17). What a failed `DNEW` leaves in `PBUF` is free
(log 6). -/
def Obligations.StoringCommandsFrame : Prop :=
  ∀ s t, s.pbuf.wf = true → s.cbuf.wf = true →
    (∀ c, exec (.badd c) s = .next t →
      t.cbuf = s.cbuf ∧
      ∀ a, a ≠ s.count.toNat * s.width.toNat / 8 → t.pbuf.read a = s.pbuf.read a) ∧
    (exec .bfin s = .next t →
      t.pbuf = s.pbuf ∧
      ∀ a, (compress s.cfg s.packed).length ≤ a → t.cbuf.read a = s.cbuf.read a) ∧
    (∀ b, exec (.cput b) s = .next t →
      t.pbuf = s.pbuf ∧ ∀ a, a ≠ s.clen.toNat → t.cbuf.read a = s.cbuf.read a) ∧
    (∀ w out, exec (.dnew w) s = .next t → inflate s.compressed s.cfg.maxExpanded = .ok out →
      t.cbuf = s.cbuf ∧ ∀ a, out.length ≤ a → t.pbuf.read a = s.pbuf.read a)

/-- The transitions of `PHASE` (10_state.md R29), with the error each cell of the table names. -/
def Obligations.PhaseTransitions : Prop :=
  ∀ i s t, exec i s = .next t →
    match i with
    | .rst => t.phase = .idle
    | .bnew w =>
      if LegalWidth w then t.phase = .opened
      else t.phase = s.phase ∧ t.rsp = some (responseWord .invalidBitWidth 0)
    | .badd _ =>
      t.phase = s.phase ∧
      (s.phase = .idle ∨ s.phase = .dec → t.rsp = some (responseWord .illegalState 0)) ∧
      (s.phase = .built → t.rsp = some (responseWord .builderAlreadyFinalized 0))
    | .bfin =>
      (s.phase = .idle ∨ s.phase = .dec →
        t.phase = s.phase ∧ t.rsp = some (responseWord .illegalState 0)) ∧
      (s.phase = .built →
        t.phase = .built ∧ t.rsp = some (responseWord .builderAlreadyFinalized 0)) ∧
      (s.phase = .opened →
        t.phase = .built ∨ (t.phase = .opened ∧ t.rsp = some (responseWord .capacityExceeded 0)))
    | .dnew w =>
      if LegalWidth w then
        match inflate s.compressed s.cfg.maxExpanded with
        | .ok _ => t.phase = .dec
        | .error e => t.phase = .idle ∧ t.rsp = some (responseWord e.status 0)
      else t.phase = s.phase ∧ t.rsp = some (responseWord .invalidBitWidth 0)
    | .stat | .bcnt | .get _ | .len | .cclr | .cput _ | .clen | .cget _ | .plen | .pget _ =>
      t.phase = s.phase

/-- A finalized builder stays finalized: after any commands but `BNEW`, `DNEW` and `RST` the phase is still
`BUILT`, and `BADD` and `BFIN` answer `BuilderAlreadyFinalized` and write nothing (70_reset_and_hazards.md
R246, 60_exceptions.md R215). -/
def Obligations.FinalizedBuilderStaysFinalized : Prop :=
  ∀ s t is, s.phase = .built →
    (∀ i ∈ is, i ≠ .rst ∧ (∀ w, i ≠ .bnew w) ∧ ∀ w, i ≠ .dnew w) →
    execAll is s = .next t →
    t.phase = .built ∧ t.packed = s.packed ∧ t.width = s.width ∧ t.count = s.count ∧
    (∀ c, exec (.badd c) t = .next { t with rsp := some (responseWord .builderAlreadyFinalized 0) }) ∧
    exec .bfin t = .next { t with rsp := some (responseWord .builderAlreadyFinalized 0) }

/-- The answers of every command in the reset state, whatever its operand (70_reset_and_hazards.md R242). -/
def Obligations.AnswersInTheResetState : Prop :=
  ∀ s, s.phase = .idle → s.width = 0 → s.count = 0 → s.plen = 0 → s.clen = 0 → s.cfg.wf →
    Answers .stat s .ok 0 ∧ Answers .plen s .ok 0 ∧ Answers .clen s .ok 0 ∧
    (∀ a, Answers (.pget a) s .indexOutOfBounds 0 ∧ Answers (.cget a) s .indexOutOfBounds 0) ∧
    (∀ c, Answers (.badd c) s .illegalState 0) ∧ Answers .bfin s .illegalState 0 ∧
    Answers .bcnt s .illegalState 0 ∧ (∀ i, Answers (.get i) s .illegalState 0) ∧
    Answers .len s .illegalState 0 ∧
    (∀ w, LegalWidth w → Answers (.dnew w) s .corruptData 0 ∧ Answers (.bnew w) s .ok 0) ∧
    (∀ w, ¬ LegalWidth w →
      Answers (.dnew w) s .invalidBitWidth 0 ∧ Answers (.bnew w) s .invalidBitWidth 0) ∧
    Answers .cclr s .ok 0 ∧ Answers .rst s .ok 0 ∧ ∀ b, Answers (.cput b) s .ok 0

/-! ### The system commands -/

/-- `RST` sets all five registers to their reset values and answers `OK`, in every state; no byte of a
buffer is written (45_system_commands.md R190). -/
def Obligations.RstSetsTheResetValues : Prop :=
  ∀ s : State, exec .rst s = .next
    { s with phase := .idle, width := 0, count := 0, plen := 0, clen := 0,
             rsp := some (responseWord .ok 0) }

/-- `STAT` answers the phase in bits 1:0 and the width in bits 7:4, the other bits 0; under the invariants
there are thirteen answers (45_system_commands.md R191). -/
def Obligations.StatAnswersPhaseAndWidth : Prop :=
  ∀ s : State, ∃ r : Word,
    exec .stat s = .next { s with rsp := some (responseWord .ok r) } ∧
    r.extractLsb' 0 2 = (match s.phase with | .idle => 0 | .opened => 1 | .built => 2 | .dec => 3) ∧
    r.extractLsb' 2 2 = 0 ∧ r.extractLsb' 4 4 = s.width ∧ r.extractLsb' 8 24 = 0 ∧
    (Invariants s → r ∈ [(0 : Word), 0x11, 0x12, 0x13, 0x21, 0x22, 0x23, 0x41, 0x42, 0x43, 0x81, 0x82, 0x83])

/-! ### The builder commands -/

/-- `BNEW w` makes an empty builder of a legal width in every phase, and refuses every other operand with
the state unchanged (43_builder_commands.md R170). -/
def Obligations.BnewMakesAnEmptyBuilder : Prop :=
  ∀ (w : Word) (s : State),
    (LegalWidth w → exec (.bnew w) s = .next
      { s with phase := .opened, width := w.setWidth 4, count := 0, plen := 0,
               rsp := some (responseWord .ok 0) }) ∧
    (¬ LegalWidth w → exec (.bnew w) s = .next
      { s with rsp := some (responseWord .invalidBitWidth 0) })

/-- `BADD c` in an open builder with room appends the code: the builder then holds the codes before it and
`c`, packed as `Pack` packs them (43_builder_commands.md R171). -/
def Obligations.BaddAppendsTheCode : Prop :=
  ∀ (c : Word) (s : State) (codes : List Nat), Invariants s → s.phase = .opened → s.holdsCodes codes →
    c.toNat < 2 ^ s.width.toNat →
    s.count.toNat * s.width.toNat / 8 < s.cfg.pbufBytes →
    ∃ t, exec (.badd c) s = .next t ∧ t.rsp = some (responseWord .ok 0) ∧
      t.holdsCodes (codes ++ [c.toNat]) ∧ t.count.toNat = s.count.toNat + 1 ∧
      t.phase = .opened ∧ t.width = s.width ∧ t.clen = s.clen

/-- The one byte `BADD c` writes and the two counters, as the pseudocode has them: a new byte holds the code
in lane 0, a byte already begun gets the code at its shift (43_builder_commands.md R171). -/
def Obligations.BaddWritesOneByte : Prop :=
  ∀ (c : Word) (s : State), s.phase = .opened → c.toNat < 2 ^ s.width.toNat → s.pbuf.wf = true →
    s.count.toNat * s.width.toNat / 8 < s.cfg.pbufBytes →
    ∃ t, exec (.badd c) s = .next t ∧ t.rsp = some (responseWord .ok 0) ∧ t.count = s.count + 1 ∧
      (s.count.toNat * s.width.toNat % 8 = 0 →
        t.plen = s.plen + 1 ∧
        t.pbuf.read (s.count.toNat * s.width.toNat / 8) = BitVec.ofNat 8 c.toNat) ∧
      (s.count.toNat * s.width.toNat % 8 ≠ 0 →
        t.plen = s.plen ∧
        t.pbuf.read (s.count.toNat * s.width.toNat / 8) =
          s.pbuf.read (s.count.toNat * s.width.toNat / 8) |||
            BitVec.ofNat 8 (c.toNat * 2 ^ (s.count.toNat * s.width.toNat % 8)))

/-- The errors of `BADD` in their order: no builder, finalized builder, code too large, packed buffer full;
the state is unchanged (60_exceptions.md R222, R223, 43_builder_commands.md R171). -/
def Obligations.BaddErrorsInOrder : Prop :=
  ∀ (c : Word) (s : State),
    (s.phase = .idle ∨ s.phase = .dec →
      exec (.badd c) s = .next { s with rsp := some (responseWord .illegalState 0) }) ∧
    (s.phase = .built →
      exec (.badd c) s = .next { s with rsp := some (responseWord .builderAlreadyFinalized 0) }) ∧
    (s.phase = .opened → 2 ^ s.width.toNat ≤ c.toNat →
      exec (.badd c) s = .next { s with rsp := some (responseWord .valueOutOfRange 0) }) ∧
    (s.phase = .opened → c.toNat < 2 ^ s.width.toNat →
      s.count.toNat * s.width.toNat = 8 * s.cfg.pbufBytes →
      exec (.badd c) s = .next { s with rsp := some (responseWord .capacityExceeded 0) })

/-- `BFIN` of an open builder whose compressed output fits: `CBUF[0..CLEN)` is the output of `Compress` on
the PackedBuffer, the phase is `BUILT`, the result is the length, and the context is kept
(43_builder_commands.md R172). -/
def Obligations.BfinCompressesTheBuffer : Prop :=
  ∀ s, Invariants s → s.phase = .opened → (compress s.cfg s.packed).length ≤ s.cfg.cbufBytes →
    ∃ t, exec .bfin s = .next t ∧
      t.rsp = some (responseWord .ok (BitVec.ofNat 32 (compress s.cfg s.packed).length)) ∧
      t.compressed = compress s.cfg s.packed ∧
      t.clen.toNat = (compress s.cfg s.packed).length ∧
      t.phase = .built ∧ t.width = s.width ∧ t.count = s.count ∧ t.plen = s.plen ∧ t.pbuf = s.pbuf

/-- The errors of `BFIN` in their order; nothing is written (43_builder_commands.md R172). -/
def Obligations.BfinErrorsInOrder : Prop :=
  ∀ s : State,
    (s.phase = .idle ∨ s.phase = .dec →
      exec .bfin s = .next { s with rsp := some (responseWord .illegalState 0) }) ∧
    (s.phase = .built →
      exec .bfin s = .next { s with rsp := some (responseWord .builderAlreadyFinalized 0) }) ∧
    (s.phase = .opened → s.plen.toNat ≤ s.cfg.pbufBytes →
      s.cfg.cbufBytes < (compress s.cfg s.packed).length →
      exec .bfin s = .next { s with rsp := some (responseWord .capacityExceeded 0) })

/-- `BCNT` answers `COUNT` where there is a builder and `IllegalState` elsewhere (43_builder_commands.md
R173). -/
def Obligations.BcntAnswersTheCount : Prop :=
  ∀ s : State,
    (s.phase = .opened ∨ s.phase = .built →
      exec .bcnt s = .next { s with rsp := some (responseWord .ok s.count) }) ∧
    (s.phase = .idle ∨ s.phase = .dec →
      exec .bcnt s = .next { s with rsp := some (responseWord .illegalState 0) })

/-- The codes of a builder are recoverable from its state (43_builder_commands.md R175). -/
def Obligations.BuilderCodesAreRecoverable : Prop :=
  ∀ s codes i, Invariants s → s.hasBuilder → s.holdsCodes codes → (h : i < codes.length) →
    unpackOne s.packed s.width.toNat i = .ok (BitVec.ofNat 8 codes[i])

/-! ### The decoder commands -/

/-- `DNEW w`, in every phase (44_decoder_commands.md R180): an illegal width is refused with the state
unchanged; a stream `Inflate` accepts becomes the PackedBuffer of a decoder; an error of `Inflate` is
reported and the context destroyed; `CBUF` and `CLEN` are never written. -/
def Obligations.DnewDecompresses : Prop :=
  ∀ (w : Word) (s : State), Invariants s →
    (¬ LegalWidth w →
      exec (.dnew w) s = .next { s with rsp := some (responseWord .invalidBitWidth 0) }) ∧
    (LegalWidth w →
      ∃ t, exec (.dnew w) s = .next t ∧ t.cbuf = s.cbuf ∧ t.clen = s.clen ∧ t.count = 0 ∧
        match inflate s.compressed s.cfg.maxExpanded with
        | .ok out =>
          t.rsp = some (responseWord .ok (BitVec.ofNat 32 out.length)) ∧ t.phase = .dec ∧
          t.width = w.setWidth 4 ∧ t.plen.toNat = out.length ∧ t.packed = out
        | .error e =>
          t.rsp = some (responseWord e.status 0) ∧ t.phase = .idle ∧ t.width = 0 ∧ t.plen = 0)

/-- `GET i` answers `UnpackOne(PBUF[0..PLEN), WIDTH, i)` in every phase but `IDLE`, where it answers
`IllegalState`; it writes nothing (44_decoder_commands.md R181). -/
def Obligations.GetAnswersUnpackOne : Prop :=
  ∀ (i : Word) (s : State), Invariants s →
    (s.phase = .idle → exec (.get i) s = .next { s with rsp := some (responseWord .illegalState 0) }) ∧
    (s.phase ≠ .idle →
      match unpackOne s.packed s.width.toNat i.toNat with
      | .ok v => exec (.get i) s = .next { s with rsp := some (responseWord .ok (v.setWidth 32)) }
      | .error e => e = .indexOutOfBounds ∧
          exec (.get i) s = .next { s with rsp := some (responseWord .indexOutOfBounds 0) })

/-- `GET` fails at the index `LEN` answers and at every higher one, and succeeds below it
(44_decoder_commands.md R181, R182). -/
def Obligations.GetSucceedsExactlyBelowLen : Prop :=
  ∀ s, Invariants s → s.phase ≠ .idle →
    ∃ n : Word, Answers .len s .ok n ∧
      ∀ i : Word, (i.toNat < n.toNat → ∃ v, Answers (.get i) s .ok v ∧ v.toNat < 2 ^ s.width.toNat) ∧
        (n.toNat ≤ i.toNat → Answers (.get i) s .indexOutOfBounds 0)

/-- `LEN` answers `(8 × PLEN) div WIDTH`, without truncation, in every phase but `IDLE`, where it answers
`IllegalState` (44_decoder_commands.md R182). -/
def Obligations.LenAnswersTheCapacity : Prop :=
  ∀ s, Invariants s →
    (s.phase = .idle → exec .len s = .next { s with rsp := some (responseWord .illegalState 0) }) ∧
    (s.phase ≠ .idle → ∃ n : Word,
      exec .len s = .next { s with rsp := some (responseWord .ok n) } ∧
      n.toNat = 8 * s.plen.toNat / s.width.toNat)

/-- The answers of `GET` and `LEN` do not depend on the compressed buffer, nor on `COUNT`
(70_reset_and_hazards.md R248, R255). -/
def Obligations.LookupsIgnoreTheCompressedBuffer : Prop :=
  ∀ (s : State) (m : Memory) (n c : Word) (st : Status) (r : Word),
    (∀ i, Answers (.get i) s st r ↔ Answers (.get i) { s with cbuf := m, clen := n, count := c } st r) ∧
    (Answers .len s st r ↔ Answers .len { s with cbuf := m, clen := n, count := c } st r)

/-! ### The commands on the buffers -/

/-- `CCLR` empties the compressed buffer and touches nothing else (42_compress.md R158). -/
def Obligations.CclrEmptiesTheCompressedBuffer : Prop :=
  ∀ s : State, exec .cclr s = .next { s with clen := 0, rsp := some (responseWord .ok 0) }

/-- `CPUT b` appends the byte when there is room and answers `CapacityExceeded`, state unchanged, when the
buffer is full (42_compress.md R159). -/
def Obligations.CputAppendsTheByte : Prop :=
  ∀ (b : Byte) (s : State), Invariants s →
    (s.clen.toNat = s.cfg.cbufBytes →
      exec (.cput b) s = .next { s with rsp := some (responseWord .capacityExceeded 0) }) ∧
    (s.clen.toNat < s.cfg.cbufBytes →
      ∃ t, exec (.cput b) s = .next t ∧ t.rsp = some (responseWord .ok 0) ∧
        t.clen.toNat = s.clen.toNat + 1 ∧ t.compressed = s.compressed ++ [b] ∧
        t = { s with cbuf := t.cbuf, clen := t.clen, rsp := t.rsp })

/-- `CLEN` and `PLEN` answer the two lengths, in every phase (42_compress.md R160, 40_bitpacker.md R90). -/
def Obligations.LengthCommandsAnswerTheLengths : Prop :=
  ∀ s : State,
    exec .clen s = .next { s with rsp := some (responseWord .ok s.clen) } ∧
    exec .plen s = .next { s with rsp := some (responseWord .ok s.plen) }

/-- `CGET a` and `PGET a` answer the byte at an address below the length, and `IndexOutOfBounds` at every
other (42_compress.md R161, 40_bitpacker.md R91). -/
def Obligations.ByteCommandsAnswerTheByte : Prop :=
  ∀ (a : Word) (s : State), Invariants s →
    (exec (.cget a) s = .next
      (match s.compressed[a.toNat]? with
        | some b => { s with rsp := some (responseWord .ok (b.setWidth 32)) }
        | none => { s with rsp := some (responseWord .indexOutOfBounds 0) })) ∧
    (exec (.pget a) s = .next
      (match s.packed[a.toNat]? with
        | some b => { s with rsp := some (responseWord .ok (b.setWidth 32)) }
        | none => { s with rsp := some (responseWord .indexOutOfBounds 0) }))

/-! ### The packing functions -/

/-- L1 and L2 of 40_bitpacker.md R88: unpacking a packed buffer gives each code back, and its length is
`PackedLen`. -/
def Obligations.UnpackOfPackIsTheCode : Prop :=
  ∀ (w : Nat) (codes : List Nat) (b : List Byte), w = 1 ∨ w = 2 ∨ w = 4 ∨ w = 8 →
    pack codes w = .ok b →
    b.length = packedLen codes.length w ∧
    ∀ i, (h : i < codes.length) → ∃ v, unpackOne b w i = .ok v ∧ v.toNat = codes[i]

/-- L3 and L4 of 40_bitpacker.md R88: the lanes after the last code hold 0, and an index at or above the
capacity is refused. -/
def Obligations.PaddingIsZeroUpToTheCapacity : Prop :=
  ∀ (w : Nat) (codes : List Nat) (b : List Byte), w = 1 ∨ w = 2 ∨ w = 4 ∨ w = 8 →
    pack codes w = .ok b →
    (∀ i, codes.length ≤ i → i < cap b.length w → unpackOne b w i = .ok 0) ∧
    (∀ i, cap b.length w ≤ i → unpackOne b w i = .error .indexOutOfBounds)

/-- L5 of 40_bitpacker.md R88: what appending one code does to the packed bytes. -/
def Obligations.PackOfAppend : Prop :=
  ∀ (w : Nat) (codes : List Nat) (b : List Byte) (c : Nat), w = 1 ∨ w = 2 ∨ w = 4 ∨ w = 8 →
    pack codes w = .ok b → c < 2 ^ w →
    (codes.length * w % 8 = 0 → pack (codes ++ [c]) w = .ok (b ++ [BitVec.ofNat 8 c])) ∧
    (codes.length * w % 8 ≠ 0 →
      ∃ d last, b = d ++ [last] ∧
        pack (codes ++ [c]) w =
          .ok (d ++ [last ||| BitVec.ofNat 8 (c * 2 ^ (codes.length * w % 8))]))

/-- L6 and L7 of 40_bitpacker.md R88: every byte sequence is the packing of its own lanes, and `Pack` is
injective on sequences of one length. -/
def Obligations.PackIsOntoAndInjective : Prop :=
  ∀ w : Nat, w = 1 ∨ w = 2 ∨ w = 4 ∨ w = 8 →
    (∀ d : List Byte, ∃ codes : List Nat, codes.length = cap d.length w ∧ pack codes w = .ok d ∧
      ∀ i, (h : i < codes.length) → ∃ v, unpackOne d w i = .ok v ∧ v.toNat = codes[i]) ∧
    (∀ (xs ys : List Nat) (d : List Byte), xs.length = ys.length →
      pack xs w = .ok d → pack ys w = .ok d → xs = ys)

/-- `Pack` refuses exactly the sequences with a code that is not below `2^w` (40_bitpacker.md R84). -/
def Obligations.PackRefusesLargeCodes : Prop :=
  ∀ (codes : List Nat) (w : Nat),
    ((∃ c ∈ codes, 2 ^ w ≤ c) → pack codes w = .error .valueOutOfRange) ∧
    ((∀ c ∈ codes, c < 2 ^ w) → ∃ b, pack codes w = .ok b)

/-- A code never straddles two bytes, and reading two bytes would give the same value (40_bitpacker.md
R87). -/
def Obligations.CodesNeverStraddleBytes : Prop :=
  ∀ w i : Nat, w = 1 ∨ w = 2 ∨ w = 4 ∨ w = 8 →
    i * w % 8 % w = 0 ∧ i * w % 8 + w ≤ 8 ∧
    ∀ x y : Byte,
      (lane x (i * w % 8) w).toNat = (x.toNat + 256 * y.toNat) / 2 ^ (i * w % 8) % 2 ^ w

/-! ### The decompressor -/

/-- The fixed codes are the ranges of 41_inflate.md R114 and R115. -/
def Obligations.FixedCodesAreTheTables : Prop :=
  fixedLitLen = (List.range 288).map (fun s =>
    if s ≤ 143 then ⟨s, 8, 0x30 + s⟩
    else if s ≤ 255 then ⟨s, 9, 0x190 + s - 144⟩
    else if s ≤ 279 then ⟨s, 7, s - 256⟩
    else ⟨s, 8, 0xC0 + s - 280⟩) ∧
  fixedDist = (List.range 32).map (fun d => ⟨d, 5, d⟩)

/-- The example stream of 41_inflate.md R134: accepted with every limit from 2 on, over the limit with 1. -/
def Obligations.ExampleStreamDecodes : Prop :=
  (∀ limit, 2 ≤ limit →
    inflate [0x78, 0xDA, 0xDB, 0xB9, 0x18, 0x00, 0x02, 0x17, 0x01, 0x5D] limit = .ok [0xB9, 0xA3]) ∧
  inflate [0x78, 0xDA, 0xDB, 0xB9, 0x18, 0x00, 0x02, 0x17, 0x01, 0x5D] 1 =
    .error .decompressionLimitExceeded

/-- The limit decides only whether the output is given: an output is never longer than the limit, it is the
same for every limit that accepts, exactly the limits from its length on accept, and the others answer
`DecompressionLimitExceeded` (41_inflate.md R129, R107, R130). -/
def Obligations.LimitOnlyBoundsTheOutput : Prop :=
  ∀ (c : List Byte) (limit : Nat) (out : List Byte), inflate c limit = .ok out →
    out.length ≤ limit ∧
    ∀ l, inflate c l = if out.length ≤ l then .ok out else .error .decompressionLimitExceeded

/-- `Inflate` ends within the fuel of 41_inflate.md R131: more fuel for the blocks and their symbols changes
nothing, for any input, and more fuel than one per length still to read changes nothing in the loop that
reads the code lengths of a dynamic block (R118, log 12). -/
def Obligations.InflateNeverRunsOutOfFuel : Prop :=
  (∀ (c : List Byte) (limit fuel : Nat), 8 * c.length + limit + 2 ≤ fuel →
    inflateWith fuel c limit = inflate c limit) ∧
  ∀ (cl : List HuffmanCode) (total fuel more : Nat) (ls : List Nat) (k : Work),
    total ≤ fuel + ls.length →
    readLengths cl total (fuel + more) ls k = readLengths cl total fuel ls k

/-- Bytes after the check value are `CorruptData`: a buffer that holds an accepted stream and anything more
is refused (41_inflate.md R128). -/
def Obligations.BytesAfterTheStreamAreCorrupt : Prop :=
  ∀ (c d : List Byte) (limit : Nat) (out : List Byte), inflate c limit = .ok out → d ≠ [] →
    inflate (c ++ d) limit = .error .corruptData

/-- A truncated stream is `CorruptData`: every proper beginning of an accepted stream is refused so
(41_inflate.md R102, R132). -/
def Obligations.TruncatedStreamsAreCorrupt : Prop :=
  ∀ (c : List Byte) (n limit : Nat) (out : List Byte), inflate c limit = .ok out → n < c.length →
    inflate (c.take n) limit = .error .corruptData

/-! ### The compressor -/

/-- The reference kernel is lossless (42_compress.md R157, R150). -/
def Obligations.ReferenceKernelIsLossless : Prop :=
  ∀ (b : List Byte) (limit : Nat), b.length ≤ limit → inflate (compressRef b) limit = .ok b

/-- The size of the reference kernel's output, its bounds, and the size of compressed buffer that is enough
for every packed buffer of at most `m` bytes (42_compress.md R156). -/
def Obligations.ReferenceKernelSize : Prop :=
  ∀ b : List Byte,
    (compressRef b).length =
      2 + (10 + 8 * b.length + (b.filter fun x => decide (144 ≤ x.toNat)).length + 7) / 8 + 4 ∧
    b.length + 8 ≤ (compressRef b).length ∧
    (compressRef b).length ≤ 2 + (10 + 9 * b.length + 7) / 8 + 4 ∧
    ∀ m, b.length ≤ m → (compressRef b).length ≤ 6 + (10 + 9 * m + 7) / 8

/-! ### The block as a whole -/

/-- Round trip through the block (44_decoder_commands.md R184, R183): a list built, finalized and decoded
gives its packed buffer back; `LEN` is the capacity; `GET` gives each code, and 0 in the padding. The
kernel is the reference one, or any that is lossless on this buffer (42_compress.md R150, log 2). -/
def Obligations.BuiltListsDecodeToTheirCodes : Prop :=
  ∀ (s : State) (codes : List Nat), Invariants s → s.phase = .opened → s.holdsCodes codes →
    s.cfg.kernel = .reference ∨ inflate (compress s.cfg s.packed) s.cfg.maxExpanded = .ok s.packed →
    (compress s.cfg s.packed).length ≤ s.cfg.cbufBytes →
    packedLen codes.length s.width.toNat ≤ s.cfg.maxExpanded →
    ∃ t u, exec .bfin s = .next t ∧ exec (.dnew (s.width.setWidth 32)) t = .next u ∧
      u.rsp = some (responseWord .ok (BitVec.ofNat 32 (packedLen codes.length s.width.toNat))) ∧
      u.packed = s.packed ∧
      Answers .len u .ok
        (BitVec.ofNat 32 (cap (packedLen codes.length s.width.toNat) s.width.toNat)) ∧
      (∀ i : Word, (h : i.toNat < codes.length) →
        Answers (.get i) u .ok (BitVec.ofNat 32 codes[i.toNat])) ∧
      (∀ i : Word, codes.length ≤ i.toNat →
        i.toNat < cap (packedLen codes.length s.width.toNat) s.width.toNat →
        Answers (.get i) u .ok 0)

/-- A block can build a list it refuses to decode: with `PackedLen(n, w) > MAX_EXPANDED` the `DNEW` after
the `BFIN` answers `DecompressionLimitExceeded` (44_decoder_commands.md R184, 70_reset_and_hazards.md
R253). -/
def Obligations.ListsBeyondTheLimitAreRefused : Prop :=
  ∀ (s : State) (codes : List Nat), Invariants s → s.phase = .opened → s.holdsCodes codes →
    s.cfg.kernel = .reference ∨ inflate (compress s.cfg s.packed) s.packed.length = .ok s.packed →
    (compress s.cfg s.packed).length ≤ s.cfg.cbufBytes →
    s.cfg.maxExpanded < packedLen codes.length s.width.toNat →
    ∃ t, exec .bfin s = .next t ∧
      Answers (.dnew (s.width.setWidth 32)) t .decompressionLimitExceeded 0
end

