-- ==== Sys2Proof/Laws/Memory.lean ====
section
/-! SUPPORT. The laws of a buffer memory: reading after writing, ranges, and that every memory operation keeps
the canonical form, in which equal contents are equal lists. -/

namespace Sys2Proof.Machine

/-! ### Reading after writing -/

@[simp] theorem Memory.read_nil (a : Nat) : Memory.read [] a = unlistedByte := rfl

theorem Memory.read_cons (k : Nat) (v : Byte) (m : Memory) (a : Nat) :
    Memory.read ((k, v) :: m) a = if k = a then v else Memory.read m a := rfl

/-- Nothing below `lo` is listed in a memory whose addresses rise from `lo` on. -/
theorem Memory.read_below {m : Memory} {lo a : Nat} (h : Memory.wfFrom lo m = true) (ha : a < lo) :
    m.read a = unlistedByte := by
  induction m generalizing lo with
  | nil => rfl
  | cons c m ih =>
    obtain ⟨k, v⟩ := c
    simp only [Memory.wfFrom, Bool.and_eq_true, decide_eq_true_eq] at h
    rw [Memory.read_cons, if_neg (by omega)]
    exact ih h.2 (by omega)

theorem Memory.read_write_from {m : Memory} {lo : Nat} (h : Memory.wfFrom lo m = true) (a : Nat)
    (b : Byte) (x : Nat) : (m.write a b).read x = if x = a then b else m.read x := by
  induction m generalizing lo with
  | nil =>
    by_cases hb : b = unlistedByte
    · simp [Memory.write, hb]
    · by_cases hx : x = a
      · simp [Memory.write, hb, hx, Memory.read_cons]
      · simp [Memory.write, hb, hx, Memory.read_cons, Ne.symm hx]
  | cons c m ih =>
    obtain ⟨k, v⟩ := c
    simp only [Memory.wfFrom, Bool.and_eq_true, decide_eq_true_eq] at h
    obtain ⟨⟨_, _⟩, hm⟩ := h
    unfold Memory.write
    split
    · rename_i hak
      split
      · rename_i hb
        by_cases hx : x = a
        · subst hx
          rw [if_pos rfl, Memory.read_cons, if_neg (by omega), Memory.read_below hm (by omega), hb]
        · rw [if_neg hx]
      · by_cases hx : x = a
        · rw [Memory.read_cons, if_pos hx.symm, if_pos hx]
        · rw [Memory.read_cons, if_neg (Ne.symm hx), if_neg hx]
    · split
      · rename_i hak
        subst hak
        split
        · rename_i hb
          by_cases hx : x = a
          · subst hx
            rw [if_pos rfl, Memory.read_below hm (by omega), hb]
          · rw [if_neg hx, Memory.read_cons, if_neg (Ne.symm hx)]
        · by_cases hx : x = a
          · rw [Memory.read_cons, if_pos hx.symm, if_pos hx]
          · rw [Memory.read_cons, if_neg (Ne.symm hx), if_neg hx, Memory.read_cons, if_neg (Ne.symm hx)]
      · rw [Memory.read_cons, ih hm]
        by_cases hx : x = a
        · subst hx; rw [if_neg (by omega), if_pos rfl, if_pos rfl]
        · rw [if_neg hx, if_neg hx, Memory.read_cons]

/-- What a byte reads as after one byte was written. -/
theorem Memory.read_write {m : Memory} (h : m.wf = true) (a : Nat) (b : Byte) (x : Nat) :
    (m.write a b).read x = if x = a then b else m.read x :=
  Memory.read_write_from h a b x

/-! ### The canonical form -/

theorem Memory.wfFrom_mono {m : Memory} {lo lo' : Nat} (h : Memory.wfFrom lo m = true) (hl : lo' ≤ lo) :
    Memory.wfFrom lo' m = true := by
  cases m with
  | nil => rfl
  | cons c m =>
    obtain ⟨k, v⟩ := c
    simp only [Memory.wfFrom, Bool.and_eq_true, decide_eq_true_eq] at h ⊢
    exact ⟨⟨by omega, h.1.2⟩, h.2⟩

theorem Memory.wfFrom_write {m : Memory} {lo a : Nat} (h : Memory.wfFrom lo m = true) (ha : lo ≤ a)
    (b : Byte) : Memory.wfFrom lo (m.write a b) = true := by
  induction m generalizing lo with
  | nil =>
    by_cases hb : b = unlistedByte
    · simp [Memory.write, hb, Memory.wfFrom]
    · simp [Memory.write, hb, Memory.wfFrom, ha]
  | cons c m ih =>
    obtain ⟨k, v⟩ := c
    have h' := h
    simp only [Memory.wfFrom, Bool.and_eq_true, decide_eq_true_eq] at h
    obtain ⟨⟨hk, hv⟩, hm⟩ := h
    unfold Memory.write
    split
    · split
      · exact h'
      · rename_i hak hb
        simp [Memory.wfFrom, ha, hb, hv, hm]
        omega
    · split
      · split
        · exact Memory.wfFrom_mono hm (by omega)
        · rename_i hb
          simp only [Memory.wfFrom, Bool.and_eq_true, decide_eq_true_eq]
          exact ⟨⟨ha, by simpa using hb⟩, by subst a; exact hm⟩
      · simp only [Memory.wfFrom, Bool.and_eq_true, decide_eq_true_eq]
        exact ⟨⟨hk, hv⟩, ih hm (by omega)⟩

/-- Writing a byte keeps the canonical form. -/
theorem Memory.wf_write {m : Memory} (h : m.wf = true) (a : Nat) (b : Byte) : (m.write a b).wf = true :=
  Memory.wfFrom_write h (Nat.zero_le a) b

/-- Writing a byte sequence keeps the canonical form. -/
theorem Memory.wf_writeRange {m : Memory} (h : m.wf = true) (a : Nat) (d : List Byte) :
    (m.writeRange a d).wf = true := by
  induction d generalizing m a with
  | nil => exact h
  | cons b d ih => exact ih (Memory.wf_write h a b) (a + 1)

theorem Memory.ext_from {m n : Memory} {lo : Nat} (hm : Memory.wfFrom lo m = true)
    (hn : Memory.wfFrom lo n = true) (h : ∀ a, m.read a = n.read a) : m = n := by
  induction m generalizing lo n with
  | nil =>
    cases n with
    | nil => rfl
    | cons c n =>
      obtain ⟨k, v⟩ := c
      have hk := h k
      simp only [Memory.wfFrom, Bool.and_eq_true, decide_eq_true_eq] at hn
      rw [Memory.read_nil, Memory.read_cons, if_pos rfl] at hk
      simp [← hk] at hn
  | cons c m ih =>
    obtain ⟨k, v⟩ := c
    have hm' := hm
    simp only [Memory.wfFrom, Bool.and_eq_true, decide_eq_true_eq, bne_iff_ne] at hm
    obtain ⟨⟨hk, hv⟩, hm2⟩ := hm
    cases n with
    | nil =>
      have := h k
      rw [Memory.read_nil, Memory.read_cons, if_pos rfl] at this
      exact absurd this hv
    | cons c n =>
      obtain ⟨k', v'⟩ := c
      have hn' := hn
      simp only [Memory.wfFrom, Bool.and_eq_true, decide_eq_true_eq, bne_iff_ne] at hn
      obtain ⟨⟨hk', hv'⟩, hn2⟩ := hn
      have hkk : k = k' := by
        rcases Nat.lt_trichotomy k k' with hlt | heq | hgt
        · have := h k
          rw [Memory.read_cons, if_pos rfl, Memory.read_cons, if_neg (by omega),
            Memory.read_below hn2 (by omega)] at this
          exact absurd this hv
        · exact heq
        · have := h k'
          rw [Memory.read_cons, if_neg (by omega), Memory.read_below hm2 (by omega),
            Memory.read_cons, if_pos rfl] at this
          exact absurd this.symm hv'
      subst hkk
      have hvv : v = v' := by simpa [Memory.read_cons] using h k
      subst hvv
      rw [ih hm2 hn2 fun a => ?_]
      by_cases hka : k = a
      · subst hka
        rw [Memory.read_below hm2 (by omega), Memory.read_below hn2 (by omega)]
      · simpa [Memory.read_cons, hka] using h a

/-- Memories in canonical form that read alike are equal. -/
theorem Memory.ext {m n : Memory} (hm : m.wf = true) (hn : n.wf = true)
    (h : ∀ a, m.read a = n.read a) : m = n :=
  Memory.ext_from hm hn h

theorem Memory.wf_reset : Memory.wf State.reset.pbuf = true ∧ Memory.wf State.reset.cbuf = true := ⟨rfl, rfl⟩

/-! ### Listed addresses -/

theorem Memory.within_write {m : Memory} {n a : Nat} (h : m.within n = true) (ha : a < n) (b : Byte) :
    (m.write a b).within n = true := by
  induction m with
  | nil =>
    by_cases hb : b = unlistedByte
    · simp [Memory.write, hb, Memory.within]
    · simp [Memory.write, hb, Memory.within, ha]
  | cons c m ih =>
    obtain ⟨k, v⟩ := c
    have hc : k < n ∧ Memory.within n m = true := by
      simpa only [Memory.within, List.all_cons, Bool.and_eq_true, decide_eq_true_eq] using h
    have hcons : ∀ (x : Nat) (y : Byte) (l : Memory), x < n → Memory.within n l = true →
        Memory.within n ((x, y) :: l) = true := by
      intro x y l hx hl
      simpa only [Memory.within, List.all_cons, Bool.and_eq_true, decide_eq_true_eq] using ⟨hx, hl⟩
    unfold Memory.write
    split
    · split
      · exact h
      · exact hcons _ _ _ ha h
    · split
      · split
        · exact hc.2
        · exact hcons _ _ _ ha hc.2
      · exact hcons _ _ _ hc.1 (ih hc.2)

theorem Memory.within_writeRange {m : Memory} {n : Nat} (h : m.within n = true) (a : Nat)
    (d : List Byte) (ha : a + d.length ≤ n) : (m.writeRange a d).within n = true := by
  induction d generalizing m a with
  | nil => exact h
  | cons b d ih =>
    simp only [List.length_cons] at ha
    exact ih (Memory.within_write h (by omega) b) (a + 1) (by omega)

/-! ### Free bytes -/

/-- Free bytes are in canonical form, and only at addresses that exist. -/
theorem Memory.wf_unspecified (n draw : Nat) : (Memory.unspecified n draw).wf = true :=
  Memory.wf_writeRange rfl _ _

theorem Memory.within_unspecified (n draw : Nat) : (Memory.unspecified n draw).within n = true :=
  Memory.within_writeRange (m := []) rfl 0 _ (by simp)

/-! ### Ranges -/

@[simp] theorem Memory.length_readRange (m : Memory) (a n : Nat) : (m.readRange a n).length = n := by
  simp [Memory.readRange]

theorem Memory.getElem?_readRange (m : Memory) (a n i : Nat) :
    (m.readRange a n)[i]? = if i < n then some (m.read (a + i)) else none := by
  by_cases h : i < n
  · simp [Memory.readRange, h]
  · simp [Memory.readRange, h]

/-- What a byte reads as after a byte sequence was written. -/
theorem Memory.read_writeRange {m : Memory} (h : m.wf = true) (a : Nat) (d : List Byte) (x : Nat) :
    (m.writeRange a d).read x =
      if h' : a ≤ x ∧ x < a + d.length then d[x - a]'(by omega) else m.read x := by
  induction d generalizing m a with
  | nil =>
    rw [dif_neg (by simp)]
    rfl
  | cons b d ih =>
    rw [Memory.writeRange, ih (Memory.wf_write h a b)]
    by_cases hx : x = a
    · subst hx
      rw [dif_neg (by omega), dif_pos (by simp), Memory.read_write h, if_pos rfl]
      simp
    · by_cases hr : a + 1 ≤ x ∧ x < a + 1 + d.length
      · have : x - a = x - (a + 1) + 1 := by omega
        rw [dif_pos hr, dif_pos (by simp only [List.length_cons]; omega)]
        simp [this]
      · rw [dif_neg hr, dif_neg (by simp only [List.length_cons]; omega), Memory.read_write h, if_neg hx]

/-- A byte sequence reads back as it was written. -/
theorem Memory.readRange_writeRange {m : Memory} (h : m.wf = true) (a : Nat) (d : List Byte) :
    (m.writeRange a d).readRange a d.length = d := by
  apply List.ext_getElem?
  intro i
  rw [Memory.getElem?_readRange]
  by_cases hi : i < d.length
  · rw [if_pos hi, Memory.read_writeRange h, dif_pos (by omega), List.getElem?_eq_getElem hi]
    simp
  · rw [if_neg hi, List.getElem?_eq_none (by omega)]

/-- Two memories that read alike below `n` have the same first `n` bytes. -/
theorem Memory.readRange_congr {m m' : Memory} {n : Nat} (h : ∀ a, a < n → m'.read a = m.read a) :
    m'.readRange 0 n = m.readRange 0 n := by
  apply List.ext_getElem?
  intro i
  rw [Memory.getElem?_readRange, Memory.getElem?_readRange]
  by_cases hi : i < n
  · rw [if_pos hi, if_pos hi, h _ (by omega)]
  · rw [if_neg hi, if_neg hi]

end Sys2Proof.Machine
end

