-- ==== Sys2Proof/Laws/State.lean ====
section
/-! SUPPORT. One lemma per field per update of the state: what the field holds afterwards. -/

namespace Sys2Proof.Machine

variable (s : State)

/-! ### `State.withRsp` -/

@[simp] theorem State.withRsp_phase (q : Option PortWord) :
    (s.withRsp q).phase = s.phase := rfl
@[simp] theorem State.withRsp_width (q : Option PortWord) :
    (s.withRsp q).width = s.width := rfl
@[simp] theorem State.withRsp_count (q : Option PortWord) :
    (s.withRsp q).count = s.count := rfl
@[simp] theorem State.withRsp_plen (q : Option PortWord) :
    (s.withRsp q).plen = s.plen := rfl
@[simp] theorem State.withRsp_clen (q : Option PortWord) :
    (s.withRsp q).clen = s.clen := rfl
@[simp] theorem State.withRsp_pbuf (q : Option PortWord) :
    (s.withRsp q).pbuf = s.pbuf := rfl
@[simp] theorem State.withRsp_cbuf (q : Option PortWord) :
    (s.withRsp q).cbuf = s.cbuf := rfl
@[simp] theorem State.withRsp_cfg (q : Option PortWord) :
    (s.withRsp q).cfg = s.cfg := rfl
@[simp] theorem State.withRsp_host (q : Option PortWord) :
    (s.withRsp q).host = s.host := rfl
@[simp] theorem State.withRsp_rsp (q : Option PortWord) :
    (s.withRsp q).rsp = q := rfl
@[simp] theorem State.withRsp_draws (q : Option PortWord) :
    (s.withRsp q).draws = s.draws := rfl

/-! ### `State.withHost` -/

@[simp] theorem State.withHost_phase (h : List HostInput) :
    (s.withHost h).phase = s.phase := rfl
@[simp] theorem State.withHost_width (h : List HostInput) :
    (s.withHost h).width = s.width := rfl
@[simp] theorem State.withHost_count (h : List HostInput) :
    (s.withHost h).count = s.count := rfl
@[simp] theorem State.withHost_plen (h : List HostInput) :
    (s.withHost h).plen = s.plen := rfl
@[simp] theorem State.withHost_clen (h : List HostInput) :
    (s.withHost h).clen = s.clen := rfl
@[simp] theorem State.withHost_pbuf (h : List HostInput) :
    (s.withHost h).pbuf = s.pbuf := rfl
@[simp] theorem State.withHost_cbuf (h : List HostInput) :
    (s.withHost h).cbuf = s.cbuf := rfl
@[simp] theorem State.withHost_cfg (h : List HostInput) :
    (s.withHost h).cfg = s.cfg := rfl
@[simp] theorem State.withHost_host (h : List HostInput) :
    (s.withHost h).host = h := rfl
@[simp] theorem State.withHost_rsp (h : List HostInput) :
    (s.withHost h).rsp = s.rsp := rfl
@[simp] theorem State.withHost_draws (h : List HostInput) :
    (s.withHost h).draws = s.draws := rfl

/-! ### `State.withPbuf` -/

@[simp] theorem State.withPbuf_phase (m : Memory) :
    (s.withPbuf m).phase = s.phase := rfl
@[simp] theorem State.withPbuf_width (m : Memory) :
    (s.withPbuf m).width = s.width := rfl
@[simp] theorem State.withPbuf_count (m : Memory) :
    (s.withPbuf m).count = s.count := rfl
@[simp] theorem State.withPbuf_plen (m : Memory) :
    (s.withPbuf m).plen = s.plen := rfl
@[simp] theorem State.withPbuf_clen (m : Memory) :
    (s.withPbuf m).clen = s.clen := rfl
@[simp] theorem State.withPbuf_pbuf (m : Memory) :
    (s.withPbuf m).pbuf = m := rfl
@[simp] theorem State.withPbuf_cbuf (m : Memory) :
    (s.withPbuf m).cbuf = s.cbuf := rfl
@[simp] theorem State.withPbuf_cfg (m : Memory) :
    (s.withPbuf m).cfg = s.cfg := rfl
@[simp] theorem State.withPbuf_host (m : Memory) :
    (s.withPbuf m).host = s.host := rfl
@[simp] theorem State.withPbuf_rsp (m : Memory) :
    (s.withPbuf m).rsp = s.rsp := rfl
@[simp] theorem State.withPbuf_draws (m : Memory) :
    (s.withPbuf m).draws = s.draws := rfl

/-! ### `State.withCbuf` -/

@[simp] theorem State.withCbuf_phase (m : Memory) :
    (s.withCbuf m).phase = s.phase := rfl
@[simp] theorem State.withCbuf_width (m : Memory) :
    (s.withCbuf m).width = s.width := rfl
@[simp] theorem State.withCbuf_count (m : Memory) :
    (s.withCbuf m).count = s.count := rfl
@[simp] theorem State.withCbuf_plen (m : Memory) :
    (s.withCbuf m).plen = s.plen := rfl
@[simp] theorem State.withCbuf_clen (m : Memory) :
    (s.withCbuf m).clen = s.clen := rfl
@[simp] theorem State.withCbuf_pbuf (m : Memory) :
    (s.withCbuf m).pbuf = s.pbuf := rfl
@[simp] theorem State.withCbuf_cbuf (m : Memory) :
    (s.withCbuf m).cbuf = m := rfl
@[simp] theorem State.withCbuf_cfg (m : Memory) :
    (s.withCbuf m).cfg = s.cfg := rfl
@[simp] theorem State.withCbuf_host (m : Memory) :
    (s.withCbuf m).host = s.host := rfl
@[simp] theorem State.withCbuf_rsp (m : Memory) :
    (s.withCbuf m).rsp = s.rsp := rfl
@[simp] theorem State.withCbuf_draws (m : Memory) :
    (s.withCbuf m).draws = s.draws := rfl

/-! ### `State.withClen` -/

@[simp] theorem State.withClen_phase (n : Word) :
    (s.withClen n).phase = s.phase := rfl
@[simp] theorem State.withClen_width (n : Word) :
    (s.withClen n).width = s.width := rfl
@[simp] theorem State.withClen_count (n : Word) :
    (s.withClen n).count = s.count := rfl
@[simp] theorem State.withClen_plen (n : Word) :
    (s.withClen n).plen = s.plen := rfl
@[simp] theorem State.withClen_clen (n : Word) :
    (s.withClen n).clen = n := rfl
@[simp] theorem State.withClen_pbuf (n : Word) :
    (s.withClen n).pbuf = s.pbuf := rfl
@[simp] theorem State.withClen_cbuf (n : Word) :
    (s.withClen n).cbuf = s.cbuf := rfl
@[simp] theorem State.withClen_cfg (n : Word) :
    (s.withClen n).cfg = s.cfg := rfl
@[simp] theorem State.withClen_host (n : Word) :
    (s.withClen n).host = s.host := rfl
@[simp] theorem State.withClen_rsp (n : Word) :
    (s.withClen n).rsp = s.rsp := rfl
@[simp] theorem State.withClen_draws (n : Word) :
    (s.withClen n).draws = s.draws := rfl

/-! ### `State.withPlen` -/

@[simp] theorem State.withPlen_phase (n : Word) :
    (s.withPlen n).phase = s.phase := rfl
@[simp] theorem State.withPlen_width (n : Word) :
    (s.withPlen n).width = s.width := rfl
@[simp] theorem State.withPlen_count (n : Word) :
    (s.withPlen n).count = s.count := rfl
@[simp] theorem State.withPlen_plen (n : Word) :
    (s.withPlen n).plen = n := rfl
@[simp] theorem State.withPlen_clen (n : Word) :
    (s.withPlen n).clen = s.clen := rfl
@[simp] theorem State.withPlen_pbuf (n : Word) :
    (s.withPlen n).pbuf = s.pbuf := rfl
@[simp] theorem State.withPlen_cbuf (n : Word) :
    (s.withPlen n).cbuf = s.cbuf := rfl
@[simp] theorem State.withPlen_cfg (n : Word) :
    (s.withPlen n).cfg = s.cfg := rfl
@[simp] theorem State.withPlen_host (n : Word) :
    (s.withPlen n).host = s.host := rfl
@[simp] theorem State.withPlen_rsp (n : Word) :
    (s.withPlen n).rsp = s.rsp := rfl
@[simp] theorem State.withPlen_draws (n : Word) :
    (s.withPlen n).draws = s.draws := rfl

/-! ### `State.withCount` -/

@[simp] theorem State.withCount_phase (n : Word) :
    (s.withCount n).phase = s.phase := rfl
@[simp] theorem State.withCount_width (n : Word) :
    (s.withCount n).width = s.width := rfl
@[simp] theorem State.withCount_count (n : Word) :
    (s.withCount n).count = n := rfl
@[simp] theorem State.withCount_plen (n : Word) :
    (s.withCount n).plen = s.plen := rfl
@[simp] theorem State.withCount_clen (n : Word) :
    (s.withCount n).clen = s.clen := rfl
@[simp] theorem State.withCount_pbuf (n : Word) :
    (s.withCount n).pbuf = s.pbuf := rfl
@[simp] theorem State.withCount_cbuf (n : Word) :
    (s.withCount n).cbuf = s.cbuf := rfl
@[simp] theorem State.withCount_cfg (n : Word) :
    (s.withCount n).cfg = s.cfg := rfl
@[simp] theorem State.withCount_host (n : Word) :
    (s.withCount n).host = s.host := rfl
@[simp] theorem State.withCount_rsp (n : Word) :
    (s.withCount n).rsp = s.rsp := rfl
@[simp] theorem State.withCount_draws (n : Word) :
    (s.withCount n).draws = s.draws := rfl

/-! ### `State.withPhase` -/

@[simp] theorem State.withPhase_phase (p : Phase) :
    (s.withPhase p).phase = p := rfl
@[simp] theorem State.withPhase_width (p : Phase) :
    (s.withPhase p).width = s.width := rfl
@[simp] theorem State.withPhase_count (p : Phase) :
    (s.withPhase p).count = s.count := rfl
@[simp] theorem State.withPhase_plen (p : Phase) :
    (s.withPhase p).plen = s.plen := rfl
@[simp] theorem State.withPhase_clen (p : Phase) :
    (s.withPhase p).clen = s.clen := rfl
@[simp] theorem State.withPhase_pbuf (p : Phase) :
    (s.withPhase p).pbuf = s.pbuf := rfl
@[simp] theorem State.withPhase_cbuf (p : Phase) :
    (s.withPhase p).cbuf = s.cbuf := rfl
@[simp] theorem State.withPhase_cfg (p : Phase) :
    (s.withPhase p).cfg = s.cfg := rfl
@[simp] theorem State.withPhase_host (p : Phase) :
    (s.withPhase p).host = s.host := rfl
@[simp] theorem State.withPhase_rsp (p : Phase) :
    (s.withPhase p).rsp = s.rsp := rfl
@[simp] theorem State.withPhase_draws (p : Phase) :
    (s.withPhase p).draws = s.draws := rfl

/-! ### `State.withContext` -/

@[simp] theorem State.withContext_phase (p : Phase) (w : BitVec 4) (c n : Word) :
    (s.withContext p w c n).phase = p := rfl
@[simp] theorem State.withContext_width (p : Phase) (w : BitVec 4) (c n : Word) :
    (s.withContext p w c n).width = w := rfl
@[simp] theorem State.withContext_count (p : Phase) (w : BitVec 4) (c n : Word) :
    (s.withContext p w c n).count = c := rfl
@[simp] theorem State.withContext_plen (p : Phase) (w : BitVec 4) (c n : Word) :
    (s.withContext p w c n).plen = n := rfl
@[simp] theorem State.withContext_clen (p : Phase) (w : BitVec 4) (c n : Word) :
    (s.withContext p w c n).clen = s.clen := rfl
@[simp] theorem State.withContext_pbuf (p : Phase) (w : BitVec 4) (c n : Word) :
    (s.withContext p w c n).pbuf = s.pbuf := rfl
@[simp] theorem State.withContext_cbuf (p : Phase) (w : BitVec 4) (c n : Word) :
    (s.withContext p w c n).cbuf = s.cbuf := rfl
@[simp] theorem State.withContext_cfg (p : Phase) (w : BitVec 4) (c n : Word) :
    (s.withContext p w c n).cfg = s.cfg := rfl
@[simp] theorem State.withContext_host (p : Phase) (w : BitVec 4) (c n : Word) :
    (s.withContext p w c n).host = s.host := rfl
@[simp] theorem State.withContext_rsp (p : Phase) (w : BitVec 4) (c n : Word) :
    (s.withContext p w c n).rsp = s.rsp := rfl
@[simp] theorem State.withContext_draws (p : Phase) (w : BitVec 4) (c n : Word) :
    (s.withContext p w c n).draws = s.draws := rfl

/-! ### `State.resetRegisters` -/

@[simp] theorem State.resetRegisters_phase :
    s.resetRegisters.phase = .idle := rfl
@[simp] theorem State.resetRegisters_width :
    s.resetRegisters.width = 0 := rfl
@[simp] theorem State.resetRegisters_count :
    s.resetRegisters.count = 0 := rfl
@[simp] theorem State.resetRegisters_plen :
    s.resetRegisters.plen = 0 := rfl
@[simp] theorem State.resetRegisters_clen :
    s.resetRegisters.clen = 0 := rfl
@[simp] theorem State.resetRegisters_pbuf :
    s.resetRegisters.pbuf = s.pbuf := rfl
@[simp] theorem State.resetRegisters_cbuf :
    s.resetRegisters.cbuf = s.cbuf := rfl
@[simp] theorem State.resetRegisters_cfg :
    s.resetRegisters.cfg = s.cfg := rfl
@[simp] theorem State.resetRegisters_host :
    s.resetRegisters.host = s.host := rfl
@[simp] theorem State.resetRegisters_rsp :
    s.resetRegisters.rsp = s.rsp := rfl
@[simp] theorem State.resetRegisters_draws :
    s.resetRegisters.draws = s.draws := rfl

/-! ### `State.losePacked` -/

@[simp] theorem State.losePacked_phase :
    s.losePacked.phase = s.phase := rfl
@[simp] theorem State.losePacked_width :
    s.losePacked.width = s.width := rfl
@[simp] theorem State.losePacked_count :
    s.losePacked.count = s.count := rfl
@[simp] theorem State.losePacked_plen :
    s.losePacked.plen = s.plen := rfl
@[simp] theorem State.losePacked_clen :
    s.losePacked.clen = s.clen := rfl
@[simp] theorem State.losePacked_pbuf :
    s.losePacked.pbuf = Memory.unspecified s.cfg.pbufBytes s.draws := rfl
@[simp] theorem State.losePacked_cbuf :
    s.losePacked.cbuf = s.cbuf := rfl
@[simp] theorem State.losePacked_cfg :
    s.losePacked.cfg = s.cfg := rfl
@[simp] theorem State.losePacked_host :
    s.losePacked.host = s.host := rfl
@[simp] theorem State.losePacked_rsp :
    s.losePacked.rsp = s.rsp := rfl
@[simp] theorem State.losePacked_draws :
    s.losePacked.draws = s.draws + 1 := rfl

/-! ### `State.loseCompressed` -/

@[simp] theorem State.loseCompressed_phase :
    s.loseCompressed.phase = s.phase := rfl
@[simp] theorem State.loseCompressed_width :
    s.loseCompressed.width = s.width := rfl
@[simp] theorem State.loseCompressed_count :
    s.loseCompressed.count = s.count := rfl
@[simp] theorem State.loseCompressed_plen :
    s.loseCompressed.plen = s.plen := rfl
@[simp] theorem State.loseCompressed_clen :
    s.loseCompressed.clen = s.clen := rfl
@[simp] theorem State.loseCompressed_pbuf :
    s.loseCompressed.pbuf = s.pbuf := rfl
@[simp] theorem State.loseCompressed_cbuf :
    s.loseCompressed.cbuf = Memory.unspecified s.cfg.cbufBytes s.draws := rfl
@[simp] theorem State.loseCompressed_cfg :
    s.loseCompressed.cfg = s.cfg := rfl
@[simp] theorem State.loseCompressed_host :
    s.loseCompressed.host = s.host := rfl
@[simp] theorem State.loseCompressed_rsp :
    s.loseCompressed.rsp = s.rsp := rfl
@[simp] theorem State.loseCompressed_draws :
    s.loseCompressed.draws = s.draws + 1 := rfl

end Sys2Proof.Machine
end

