-- ==== Sys2Proof/Laws/Ops.lean ====
section
/-! SUPPORT. One lemma per shared operation that says all it can answer: responding, raising, the accesses to the
buffers, reset and taking the host's input. Proofs cite these instead of unfolding the operation. -/

namespace Sys2Proof.Machine

/-! ### Response words (30_encoding.md R61) -/

@[simp] theorem responseStatus_responseWord (st : Status) (r : Word) :
    responseStatus (responseWord st r) = st.code := by
  apply BitVec.eq_of_getLsbD_eq
  intro i hi
  simp only [responseStatus, responseWord, BitVec.getLsbD_extractLsb', BitVec.getLsbD_append]
  simp [hi, show ¬ 56 + i < 32 by omega, show ¬ 56 + i - 32 < 24 by omega,
    show 56 + i - 32 - 24 = i by omega]

@[simp] theorem responseResult_responseWord (st : Status) (r : Word) :
    responseResult (responseWord st r) = r := by
  apply BitVec.eq_of_getLsbD_eq
  intro i hi
  simp only [responseResult, responseWord, BitVec.getLsbD_extractLsb', BitVec.getLsbD_append]
  simp [hi]

/-- Bits 55:32 of a response word are 0. -/
theorem responseWord_gap (st : Status) (r : Word) :
    (responseWord st r).extractLsb' 32 24 = 0 := by
  apply BitVec.eq_of_getLsbD_eq
  intro i hi
  simp only [responseWord, BitVec.getLsbD_extractLsb', BitVec.getLsbD_append]
  simp [hi]

theorem Status.code_injective {a b : Status} (h : a.code = b.code) : a = b := by
  cases a <;> cases b <;> first | rfl | exact absurd h (by decide)

theorem Status.code_eq_zero {a : Status} : a.code = 0 ↔ a = .ok := by
  cases a <;> decide

/-! ### Ending a command -/

theorem respond_eq (st : Status) (r : Word) (s : State) :
    respond st r s = .next (s.withRsp (some (responseWord st r))) := rfl

theorem respond_eq_next {st : Status} {r : Word} {s t : State} :
    respond st r s = .next t ↔ t = s.withRsp (some (responseWord st r)) := by
  simp only [respond, Host.Outcome.next.injEq]
  exact eq_comm

theorem raise_eq (e : Status) (s : State) :
    raise e s = .next (s.withRsp (some (responseWord e 0))) := rfl

theorem raise_eq_next {e : Status} {s t : State} :
    raise e s = .next t ↔ t = s.withRsp (some (responseWord e 0)) :=
  respond_eq_next

theorem illegalCommand_eq (s : State) :
    illegalCommand s = .next (s.withRsp (some (responseWord .illegalCommand 0))) := rfl

theorem hardReset_eq (s : State) :
    hardReset s = .next (s.resetRegisters.losePacked.loseCompressed.withRsp none) := rfl

@[simp] theorem attempt_ok {α : Type} (a : α) (k : α → Result) : attempt (.ok a) k = k a := rfl

@[simp] theorem attempt_error {α : Type} (f : Fault) (k : α → Result) :
    attempt (.error f) k = .fault f := rfl

/-- A command that goes on after a buffer access has made that access. -/
theorem attempt_eq_next {α : Type} {r : Except Fault α} {k : α → Result} {t : State} :
    attempt r k = .next t ↔ ∃ a, r = .ok a ∧ k a = .next t := by
  cases r with
  | ok a => simp
  | error f => simp

/-! ### The accesses to the buffers: what each answers, and when -/

theorem State.readPacked_ok {s : State} {a : Nat} {b : Byte} :
    s.readPacked a = .ok b ↔ a < s.cfg.pbufBytes ∧ s.pbuf.read a = b := by
  unfold State.readPacked; split <;> simp [*]

theorem State.writePacked_ok {s t : State} {a : Nat} {b : Byte} :
    s.writePacked a b = .ok t ↔ a < s.cfg.pbufBytes ∧ t = s.withPbuf (s.pbuf.write a b) := by
  unfold State.writePacked; split <;> simp [*, eq_comm]

theorem State.packedBytes_ok {s : State} {n : Nat} {d : List Byte} :
    s.packedBytes n = .ok d ↔ n ≤ s.cfg.pbufBytes ∧ s.pbuf.readRange 0 n = d := by
  unfold State.packedBytes; split <;> simp [*]

theorem State.storePacked_ok {s t : State} {d : List Byte} :
    s.storePacked d = .ok t ↔
      d.length ≤ s.cfg.pbufBytes ∧ t = s.withPbuf (s.pbuf.writeRange 0 d) := by
  unfold State.storePacked; split <;> simp [*, eq_comm]

theorem State.readCompressed_ok {s : State} {a : Nat} {b : Byte} :
    s.readCompressed a = .ok b ↔ a < s.cfg.cbufBytes ∧ s.cbuf.read a = b := by
  unfold State.readCompressed; split <;> simp [*]

theorem State.writeCompressed_ok {s t : State} {a : Nat} {b : Byte} :
    s.writeCompressed a b = .ok t ↔ a < s.cfg.cbufBytes ∧ t = s.withCbuf (s.cbuf.write a b) := by
  unfold State.writeCompressed; split <;> simp [*, eq_comm]

theorem State.compressedBytes_ok {s : State} {n : Nat} {d : List Byte} :
    s.compressedBytes n = .ok d ↔ n ≤ s.cfg.cbufBytes ∧ s.cbuf.readRange 0 n = d := by
  unfold State.compressedBytes; split <;> simp [*]

theorem State.storeCompressed_ok {s t : State} {d : List Byte} :
    s.storeCompressed d = .ok t ↔
      d.length ≤ s.cfg.cbufBytes ∧ t = s.withCbuf (s.cbuf.writeRange 0 d) := by
  unfold State.storeCompressed; split <;> simp [*, eq_comm]

/-! ### The host's input -/

theorem fetch_nothing {s : State} : fetch s = .nothing ↔ s.host = [] := by
  unfold fetch; split <;> simp [*]

theorem fetch_command {s t : State} {w : PortWord} :
    fetch s = .command w t ↔ ∃ h, s.host = .command w :: h ∧ t = s.withHost h := by
  unfold fetch
  split
  · simp [*]
  · simp [*]
  · rename_i w' h hs
    simp only [hs, Fetched.command.injEq, List.cons.injEq, HostInput.command.injEq]
    exact ⟨fun ⟨hw, ht⟩ => ⟨h, ⟨hw, rfl⟩, ht.symm⟩, fun ⟨_, ⟨hw, hh⟩, ht⟩ => ⟨hw, hh ▸ ht.symm⟩⟩

theorem fetch_reset {s t : State} :
    fetch s = .reset t ↔ ∃ x h, s.host = .reset x :: h ∧ t = s.withHost h := by
  unfold fetch
  split
  · simp [*]
  · rename_i x h hs
    simp only [hs, Fetched.reset.injEq, List.cons.injEq, HostInput.reset.injEq]
    exact ⟨fun ht => ⟨x, h, ⟨rfl, rfl⟩, ht.symm⟩, fun ⟨_, _, ⟨_, hh⟩, ht⟩ => hh ▸ ht.symm⟩
  · simp [*]

end Sys2Proof.Machine
end

