-- ==== Sys2Proof/Laws/Commands.lean ====
section
/-! SUPPORT. What each command can answer, said once: if it answers a next state, then that state is one of these.
Frames, invariants and rules over all commands are derived from these lemmas. -/

namespace Sys2Proof.Machine

variable {s t : State}

/-- The next state of a command that raises an error. -/
def State.failed (s : State) (e : Status) : State := s.withRsp (some (responseWord e 0))

/-- The next state of a command that completes. -/
def State.done (s : State) (r : Word) : State := s.withRsp (some (responseWord .ok r))

@[simp] theorem State.failed_eq (s : State) (e : Status) :
    s.failed e = { s with rsp := some (responseWord e 0) } := rfl

@[simp] theorem State.done_eq (s : State) (r : Word) :
    s.done r = { s with rsp := some (responseWord .ok r) } := rfl

theorem raise_next {e : Status} : raise e s = .next t ↔ t = s.failed e := raise_eq_next

theorem respond_next {r : Word} : respond .ok r s = .next t ↔ t = s.done r := respond_eq_next

theorem legalWidth_iff {w : Word} : legalWidth w = true ↔ LegalWidth w := by
  simp [legalWidth, LegalWidth, or_assoc]

/-- A phase that is neither `IDLE`, `DEC` nor `BUILT` is `OPEN`. -/
theorem Phase.opened_of {p : Phase} (h : ¬ (p = .idle ∨ p = .dec)) (h' : p ≠ .built) : p = .opened := by
  cases p <;> simp_all

theorem execBnew_next {w : Word} : execBnew w s = .next t ↔
    (LegalWidth w ∧ t = (s.withContext .opened (widthOf w) 0 0).done 0) ∨
    (¬ LegalWidth w ∧ t = s.failed .invalidBitWidth) := by
  unfold execBnew
  by_cases h : legalWidth w = true
  · simp only [h, if_true, respond_next, legalWidth_iff.1 h, true_and, not_true_eq_false, false_and,
      or_false]
  · have h' : ¬ LegalWidth w := fun h' => h (legalWidth_iff.2 h')
    simp only [h, if_neg, raise_next, h', false_and, false_or, not_false_eq_true, true_and,
      Bool.false_eq_true]

/-- What `BADD` can do: fail in one of four ways, begin a new byte, or or the code into a byte. -/
theorem execBadd_next {c : Word} (h : execBadd c s = .next t) :
    ((s.phase = .idle ∨ s.phase = .dec) ∧ t = s.failed .illegalState) ∨
    (s.phase = .built ∧ t = s.failed .builderAlreadyFinalized) ∨
    (s.phase = .opened ∧ 2 ^ s.width.toNat ≤ c.toNat ∧ t = s.failed .valueOutOfRange) ∨
    (s.phase = .opened ∧ c.toNat < 2 ^ s.width.toNat ∧ s.appendOffset % 8 = 0 ∧
      s.appendOffset / 8 = s.cfg.pbufBytes ∧ t = s.failed .capacityExceeded) ∨
    (s.phase = .opened ∧ c.toNat < 2 ^ s.width.toNat ∧ s.appendOffset % 8 = 0 ∧
      s.appendOffset / 8 < s.cfg.pbufBytes ∧
      t = (((s.withPbuf (s.pbuf.write (s.appendOffset / 8) (BitVec.ofNat 8 c.toNat))).withPlen
        (s.plen + 1)).withCount (s.count + 1)).done 0) ∨
    (s.phase = .opened ∧ c.toNat < 2 ^ s.width.toNat ∧ s.appendOffset % 8 ≠ 0 ∧
      s.appendOffset / 8 < s.cfg.pbufBytes ∧
      t = ((s.withPbuf (s.pbuf.write (s.appendOffset / 8)
        (s.pbuf.read (s.appendOffset / 8) ||| BitVec.ofNat 8 (c.toNat <<< (s.appendOffset % 8))))).withCount
        (s.count + 1)).done 0) := by
  unfold execBadd at h
  split at h
  · exact .inl ⟨‹_›, raise_next.1 h⟩
  rename_i hi
  split at h
  · exact .inr (.inl ⟨‹_›, raise_next.1 h⟩)
  rename_i hb
  have ho := Phase.opened_of hi hb
  split at h
  · exact .inr (.inr (.inl ⟨ho, ‹_›, raise_next.1 h⟩))
  rename_i hc
  have hc : c.toNat < 2 ^ s.width.toNat := Nat.lt_of_not_le hc
  simp only at h
  split at h
  · rename_i hs
    split at h
    · exact .inr (.inr (.inr (.inl ⟨ho, hc, hs, ‹_›, raise_next.1 h⟩)))
    · obtain ⟨u, hu, h⟩ := attempt_eq_next.1 h
      obtain ⟨hj, rfl⟩ := State.writePacked_ok.1 hu
      exact .inr (.inr (.inr (.inr (.inl ⟨ho, hc, hs, hj, respond_next.1 h⟩))))
  · rename_i hs
    obtain ⟨b, hb, h⟩ := attempt_eq_next.1 h
    obtain ⟨hj, rfl⟩ := State.readPacked_ok.1 hb
    obtain ⟨u, hu, h⟩ := attempt_eq_next.1 h
    obtain ⟨_, rfl⟩ := State.writePacked_ok.1 hu
    exact .inr (.inr (.inr (.inr (.inr ⟨ho, hc, hs, hj, respond_next.1 h⟩))))

/-- What `BFIN` can do: fail in one of three ways, or store the compressed buffer. -/
theorem execBfin_next (h : execBfin s = .next t) :
    ((s.phase = .idle ∨ s.phase = .dec) ∧ t = s.failed .illegalState) ∨
    (s.phase = .built ∧ t = s.failed .builderAlreadyFinalized) ∨
    (s.phase = .opened ∧ s.plen.toNat ≤ s.cfg.pbufBytes ∧
      s.cfg.cbufBytes < (compress s.cfg s.packed).length ∧ t = s.failed .capacityExceeded) ∨
    (s.phase = .opened ∧ s.plen.toNat ≤ s.cfg.pbufBytes ∧
      (compress s.cfg s.packed).length ≤ s.cfg.cbufBytes ∧
      t = (((s.withCbuf (s.cbuf.writeRange 0 (compress s.cfg s.packed))).withClen
        (BitVec.ofNat 32 (compress s.cfg s.packed).length)).withPhase .built).done
        (resultNat (compress s.cfg s.packed).length)) := by
  unfold execBfin at h
  split at h
  · exact .inl ⟨‹_›, raise_next.1 h⟩
  rename_i hi
  split at h
  · exact .inr (.inl ⟨‹_›, raise_next.1 h⟩)
  rename_i hb
  have ho := Phase.opened_of hi hb
  obtain ⟨b, hb, h⟩ := attempt_eq_next.1 h
  obtain ⟨hp, rfl⟩ := State.packedBytes_ok.1 hb
  simp only at h
  split at h
  · exact .inr (.inr (.inl ⟨ho, hp, ‹_›, raise_next.1 h⟩))
  · rename_i hz
    obtain ⟨u, hu, h⟩ := attempt_eq_next.1 h
    obtain ⟨_, rfl⟩ := State.storeCompressed_ok.1 hu
    exact .inr (.inr (.inr ⟨ho, hp, Nat.le_of_not_lt hz, respond_next.1 h⟩))

/-- What `DNEW` can do: refuse the width, fail and destroy the context, or open a decoder. -/
theorem execDnew_next {w : Word} (h : execDnew w s = .next t) :
    (¬ LegalWidth w ∧ t = s.failed .invalidBitWidth) ∨
    (∃ e, LegalWidth w ∧ s.clen.toNat ≤ s.cfg.cbufBytes ∧
      inflate s.compressed s.cfg.maxExpanded = .error e ∧
      t = (s.losePacked.withContext .idle 0 0 0).failed e.status) ∨
    (∃ out, LegalWidth w ∧ s.clen.toNat ≤ s.cfg.cbufBytes ∧
      inflate s.compressed s.cfg.maxExpanded = .ok out ∧ out.length ≤ s.cfg.pbufBytes ∧
      t = ((s.withPbuf (s.pbuf.writeRange 0 out)).withContext .dec (widthOf w) 0
        (BitVec.ofNat 32 out.length)).done (resultNat out.length)) := by
  unfold execDnew at h
  split at h
  · rename_i hw
    obtain ⟨c, hc, h⟩ := attempt_eq_next.1 h
    obtain ⟨hcl, rfl⟩ := State.compressedBytes_ok.1 hc
    split at h
    · rename_i e he
      exact .inr (.inl ⟨e, legalWidth_iff.1 hw, hcl, he, raise_next.1 h⟩)
    · rename_i out ho
      obtain ⟨u, hu, h⟩ := attempt_eq_next.1 h
      obtain ⟨hl, rfl⟩ := State.storePacked_ok.1 hu
      exact .inr (.inr ⟨out, legalWidth_iff.1 hw, hcl, ho, hl, respond_next.1 h⟩)
  · exact .inl ⟨fun h' => ‹¬ _› (legalWidth_iff.2 h'), raise_next.1 h⟩

theorem execBcnt_next : execBcnt s = .next t ↔
    ((s.phase = .idle ∨ s.phase = .dec) ∧ t = s.failed .illegalState) ∨
    (¬ (s.phase = .idle ∨ s.phase = .dec) ∧ t = s.done s.count) := by
  unfold execBcnt
  split <;> simp only [*, raise_next, respond_next, true_and, not_true_eq_false, false_and, or_false,
    false_or, not_false_eq_true]

/-- What `GET` can do. -/
theorem execGet_next {i : Word} (h : execGet i s = .next t) :
    (s.phase = .idle ∧ t = s.failed .illegalState) ∨
    (s.phase ≠ .idle ∧ cap s.plen.toNat s.width.toNat ≤ i.toNat ∧ t = s.failed .indexOutOfBounds) ∨
    (s.phase ≠ .idle ∧ i.toNat < cap s.plen.toNat s.width.toNat ∧
      i.toNat * s.width.toNat / 8 < s.cfg.pbufBytes ∧
      t = s.done (zext32 (lane (s.pbuf.read (i.toNat * s.width.toNat / 8))
        (i.toNat * s.width.toNat % 8) s.width.toNat))) := by
  unfold execGet at h
  split at h
  · exact .inl ⟨‹_›, raise_next.1 h⟩
  split at h
  · exact .inr (.inl ⟨‹_›, ‹_›, raise_next.1 h⟩)
  · rename_i hi
    obtain ⟨b, hb, h⟩ := attempt_eq_next.1 h
    obtain ⟨hj, rfl⟩ := State.readPacked_ok.1 hb
    exact .inr (.inr ⟨‹_›, Nat.lt_of_not_le hi, hj, respond_next.1 h⟩)

theorem execLen_next : execLen s = .next t ↔
    (s.phase = .idle ∧ t = s.failed .illegalState) ∨
    (s.phase ≠ .idle ∧ t = s.done (resultNat (cap s.plen.toNat s.width.toNat))) := by
  unfold execLen
  split <;> simp only [*, raise_next, respond_next, true_and, false_and, or_false, false_or, ne_eq,
    not_true_eq_false, not_false_eq_true]

/-- What `CPUT` can do. -/
theorem execCput_next {b : Byte} (h : execCput b s = .next t) :
    (s.clen.toNat = s.cfg.cbufBytes ∧ t = s.failed .capacityExceeded) ∨
    (s.clen.toNat < s.cfg.cbufBytes ∧
      t = ((s.withCbuf (s.cbuf.write s.clen.toNat b)).withClen (s.clen + 1)).done 0) := by
  unfold execCput at h
  split at h
  · exact .inl ⟨‹_›, raise_next.1 h⟩
  · obtain ⟨u, hu, h⟩ := attempt_eq_next.1 h
    obtain ⟨hj, rfl⟩ := State.writeCompressed_ok.1 hu
    exact .inr ⟨hj, respond_next.1 h⟩

/-- What `CGET` can do. -/
theorem execCget_next {a : Word} (h : execCget a s = .next t) :
    (s.clen.toNat ≤ a.toNat ∧ t = s.failed .indexOutOfBounds) ∨
    (a.toNat < s.clen.toNat ∧ a.toNat < s.cfg.cbufBytes ∧ t = s.done (zext32 (s.cbuf.read a.toNat))) := by
  unfold execCget at h
  split at h
  · exact .inl ⟨‹_›, raise_next.1 h⟩
  · rename_i ha
    obtain ⟨b, hb, h⟩ := attempt_eq_next.1 h
    obtain ⟨hj, rfl⟩ := State.readCompressed_ok.1 hb
    exact .inr ⟨Nat.lt_of_not_le ha, hj, respond_next.1 h⟩

/-- What `PGET` can do. -/
theorem execPget_next {a : Word} (h : execPget a s = .next t) :
    (s.plen.toNat ≤ a.toNat ∧ t = s.failed .indexOutOfBounds) ∨
    (a.toNat < s.plen.toNat ∧ a.toNat < s.cfg.pbufBytes ∧ t = s.done (zext32 (s.pbuf.read a.toNat))) := by
  unfold execPget at h
  split at h
  · exact .inl ⟨‹_›, raise_next.1 h⟩
  · rename_i ha
    obtain ⟨b, hb, h⟩ := attempt_eq_next.1 h
    obtain ⟨hj, rfl⟩ := State.readPacked_ok.1 hb
    exact .inr ⟨Nat.lt_of_not_le ha, hj, respond_next.1 h⟩

end Sys2Proof.Machine
end

