-- ==== Sys2Proof/Laws/Decode.lean ====
section
/-! SUPPORT. The fields of an encoded command, and the opcode map. -/

namespace Sys2Proof

/-- The three fields of a word put together from them (30_encoding.md R60). -/
theorem fields_append (o : BitVec 8) (r : BitVec 24) (a : Word) :
    fields ((o ++ r) ++ a) = { opc := o, rsv := r, arg := a } := by
  simp only [fields, Fields.mk.injEq]
  refine ⟨?_, ?_, ?_⟩ <;> apply BitVec.eq_of_getLsbD_eq <;> intro i hi <;>
    simp only [BitVec.getLsbD_extractLsb', BitVec.getLsbD_append, hi, decide_true, Bool.true_and]
  · rw [if_neg (by omega), if_neg (by omega)]
    congr 1
    omega
  · rw [if_neg (by omega), if_pos (by omega)]
    congr 1
    omega
  · rw [if_pos (by omega)]
    congr 1
    omega

/-- A word is its fields put together. -/
theorem append_fields (w : PortWord) :
    ((fields w).opc ++ (fields w).rsv) ++ (fields w).arg = w := by
  apply BitVec.eq_of_getLsbD_eq
  intro i hi
  simp only [fields, BitVec.getLsbD_append, BitVec.getLsbD_extractLsb']
  by_cases h1 : i < 32
  · simp [h1]
  · by_cases h2 : i - 32 < 24
    · simp [h1, h2, show 32 + (i - 32) = i by omega]
    · simp [h1, h2, show 56 + (i - 32 - 24) = i by omega, show i - 32 - 24 < 8 by omega]

/-- The fields of an encoded command. -/
@[simp] theorem fields_encode (i : Instr) :
    fields (encode i) = { opc := opcode i, rsv := 0, arg := operand i } :=
  fields_append _ _ _

/-- The opcodes of the map are pairwise different, so a word has at most one row. -/
theorem opcodeMap_distinct : (opcodeMap.map OpcodeRow.opc).Nodup := by decide

end Sys2Proof
end

