-- ==== Sys2Proof/Laws/PerInstr.lean ====
section
/-! SUPPORT. Statements made of every command as syntax, one lemma per constructor. -/

namespace Sys2Proof.Laws.LegalWord

/-- The word of a command is well formed in the format of the command, and the row of the opcode map at
its opcode has that format (30_encoding.md R62, R63, R64, R67). -/
def Statement (i : Instr) : Prop :=
  (fields (encode i)).wellFormed (formatOf i) = true ∧
  (rowOf (fields (encode i)).opc).map OpcodeRow.format = some (formatOf i)

theorem rst : Statement .rst := by unfold Statement; decide
theorem stat : Statement .stat := by unfold Statement; decide
theorem bnew (w : Word) : Statement (.bnew w) := by
  simp [Statement, opcode, formatOf, operand, Fields.wellFormed, Format.admits, rowOf, opcodeMap]
theorem badd (c : Word) : Statement (.badd c) := by
  simp [Statement, opcode, formatOf, operand, Fields.wellFormed, Format.admits, rowOf, opcodeMap]
theorem bfin : Statement .bfin := by unfold Statement; decide
theorem bcnt : Statement .bcnt := by unfold Statement; decide
theorem dnew (w : Word) : Statement (.dnew w) := by
  simp [Statement, opcode, formatOf, operand, Fields.wellFormed, Format.admits, rowOf, opcodeMap]
theorem get (i : Word) : Statement (.get i) := by
  simp [Statement, opcode, formatOf, operand, Fields.wellFormed, Format.admits, rowOf, opcodeMap]
theorem len : Statement .len := by unfold Statement; decide
theorem cclr : Statement .cclr := by unfold Statement; decide
theorem cput (b : Byte) : Statement (.cput b) := by
  have h : b.toNat < 256 := b.isLt
  simp [Statement, opcode, formatOf, operand, Fields.wellFormed, Format.admits, rowOf, opcodeMap]
  omega
theorem clen : Statement .clen := by unfold Statement; decide
theorem cget (a : Word) : Statement (.cget a) := by
  simp [Statement, opcode, formatOf, operand, Fields.wellFormed, Format.admits, rowOf, opcodeMap]
theorem plen : Statement .plen := by unfold Statement; decide
theorem pget (a : Word) : Statement (.pget a) := by
  simp [Statement, opcode, formatOf, operand, Fields.wellFormed, Format.admits, rowOf, opcodeMap]

end Sys2Proof.Laws.LegalWord
end

