-- ==== Sys2Proof/Tests/Slice0.lean ====
section
/-! SUPPORT. Tests with results from spec/ (95_test_vectors.md and the examples of the rules), one step each, and for
every statement with hypotheses a witness that meets them. -/

namespace Sys2Proof.Tests

open Sys2Proof.Machine

-- One theorem at a time: a kernel evaluation waits for the check of all before it, and each that waits holds a thread.
set_option Elab.async false

/-! ### Words (30_encoding.md R60 to R70) -/

/-- The word of each row of the map of R67, format V and B with an operand, as the rule writes it out. -/
theorem test_decode_format_n :
    decode 0x0100000000000000 = .ok .rst ∧ decode 0x0200000000000000 = .ok .stat ∧
    decode 0x1200000000000000 = .ok .bfin ∧ decode 0x1300000000000000 = .ok .bcnt ∧
    decode 0x2200000000000000 = .ok .len ∧ decode 0x3000000000000000 = .ok .cclr ∧
    decode 0x3200000000000000 = .ok .clen ∧ decode 0x4000000000000000 = .ok .plen :=
  ⟨rfl, rfl, rfl, rfl, rfl, rfl, rfl, rfl⟩

theorem test_decode_format_v :
    decode 0x1000000000000004 = .ok (.bnew 4) ∧ decode 0x11000000FFFFFFFF = .ok (.badd 0xFFFFFFFF) ∧
    decode 0x2000000000000001 = .ok (.dnew 1) ∧ decode 0x210000000000000F = .ok (.get 15) ∧
    decode 0x3300000080000001 = .ok (.cget 0x80000001) ∧ decode 0x4100000000000100 = .ok (.pget 256) :=
  ⟨rfl, rfl, rfl, rfl, rfl, rfl⟩

theorem test_decode_format_b :
    decode 0x3100000000000000 = .ok (.cput 0) ∧ decode 0x3100000000000078 = .ok (.cput 0x78) ∧
    decode 0x31000000000000FF = .ok (.cput 0xFF) := ⟨rfl, rfl, rfl⟩

/-- The neighbours of the map's opcodes (R68). -/
theorem test_decode_reserved_opcodes :
    [0x00, 0x03, 0x0F, 0x14, 0x1F, 0x23, 0x2F, 0x34, 0x3F, 0x42, 0xFF].all (fun o =>
      (rowOf (BitVec.ofNat 8 o)).isNone) = true := by decide

/-- As many reserved opcodes as R68 counts. -/
theorem test_reserved_opcode_count :
    ((List.range 256).filter fun o => (rowOf (BitVec.ofNat 8 o)).isNone).length = 241 := by
  decide +kernel

/-- The examples of 45_system_commands.md R193, and the lowest and the highest bit of `RSV`. -/
theorem test_decode_reserved_bits :
    decode 0x1100000100000001 = .error .reservedBits ∧ decode 0x2180000000000000 = .error .reservedBits ∧
    decode 0x1200000000000001 = .error .operandNotZero ∧
    decode 0x0200000080000000 = .error .operandNotZero ∧
    decode 0x3100000000000100 = .error .operandHighBits ∧
    decode 0x3100000080000000 = .error .operandHighBits := ⟨rfl, rfl, rfl, rfl, rfl, rfl⟩

/-- The opcode check comes before the reserved bits (R69, R73). -/
theorem test_decode_order : decode 0x0300000100000001 = .error .reservedOpcode := rfl

theorem test_encode :
    encode (.badd 15) = 0x110000000000000F ∧ encode (.cput 0xDA) = 0x31000000000000DA ∧
    encode .bfin = 0x1200000000000000 ∧ encode (.pget 0xFFFFFFFF) = 0x41000000FFFFFFFF := by decide

theorem test_decodeTableWord :
    decodeTableWord 64 0x2200000000000000 = some .len ∧ decodeTableWord 64 0 = none ∧
    decodeTableWord 56 0x2200000000000000 = none ∧ decodeTableWord 72 0x2200000000000000 = none := by
  decide

/-- Well-formed fields, and a term that each check refuses (R62, R64, R69). -/
theorem test_wellFormed_accepts :
    Fields.wellFormed .n ⟨0x12, 0, 0⟩ = true ∧ Fields.wellFormed .v ⟨0x11, 0, 0xFFFFFFFF⟩ = true ∧
    Fields.wellFormed .b ⟨0x31, 0, 255⟩ = true := by decide

theorem test_wellFormed_refuses_reserved_bits : Fields.wellFormed .v ⟨0x11, 1, 1⟩ = false := by decide

theorem test_wellFormed_refuses_operand : Fields.wellFormed .n ⟨0x12, 0, 1⟩ = false := by decide

theorem test_wellFormed_refuses_high_bits : Fields.wellFormed .b ⟨0x31, 0, 0x100⟩ = false := by decide

/-! ### Packing (95_test_vectors.md section 2) -/

/-- The bytes of an answer, or none for an error. -/
def bytesOf {ε : Type} : Except ε (List Byte) → Option (List Byte)
  | .ok b => some b
  | .error _ => none

theorem test_pack :
    bytesOf (pack [1, 0, 0, 1, 1, 1, 0, 1, 1, 1, 0, 0, 0, 1, 0, 1] 1) = some [0xB9, 0xA3] ∧
    bytesOf (pack [1, 0, 0, 1, 1, 1, 0, 1, 1, 0, 1, 1, 1, 0, 0, 1] 1) = some [0xB9, 0x9D] ∧
    bytesOf (pack [1, 1, 1, 1, 1, 1, 1, 1, 1] 1) = some [0xFF, 0x01] ∧
    bytesOf (pack [1, 2, 3, 0, 2] 2) = some [0x39, 0x02] ∧
    bytesOf (pack [15, 0, 10] 4) = some [0x0F, 0x0A] ∧
    bytesOf (pack [0, 255, 16] 8) = some [0x00, 0xFF, 0x10] ∧
    bytesOf (pack [] 4) = some [] := by decide +kernel

theorem test_pack_refuses :
    bytesOf (pack [2] 1) = none ∧ bytesOf (pack [0, 4] 2) = none ∧
    bytesOf (pack [16] 4) = none ∧ bytesOf (pack [256] 8) = none := by decide +kernel

/-- All codes of a buffer, by index. -/
def codesOf (d : List Byte) (w : Nat) : List (Option Byte) :=
  (List.range (cap d.length w + 1)).map fun i => (unpackOne d w i).toOption

theorem test_unpack :
    codesOf [0xB9, 0xA3] 2 = [some 1, some 2, some 3, some 2, some 3, some 0, some 2, some 2, none] ∧
    codesOf [0xB9, 0xA3] 4 = [some 9, some 11, some 3, some 10, none] ∧
    codesOf [0xB9, 0xA3] 8 = [some 185, some 163, none] ∧
    codesOf [0x24] 2 = [some 0, some 1, some 2, some 0, none] ∧ codesOf [] 1 = [none] := by
  decide +kernel

/-! ### Decompressing and compressing (95_test_vectors.md sections 4 and 5) -/

/-- What `Inflate` answers, in a form that can be compared. -/
def verdict (c : List Byte) (limit : Nat) : InflateError ⊕ List Byte :=
  match inflate c limit with
  | .ok d => .inr d
  | .error e => .inl e

/-- V3: a stored block. -/
theorem test_inflate_stored :
    verdict [0x78, 0x01, 0x01, 0x02, 0x00, 0xFD, 0xFF, 0xB9, 0xA3, 0x02, 0x17, 0x01, 0x5D] 64 =
      .inr [0xB9, 0xA3] := by decide +kernel

/-- V6: an overlapping match. -/
theorem test_inflate_match :
    verdict [0x78, 0xDA, 0x4B, 0x4C, 0x4A, 0x4E, 0x04, 0x23, 0x00, 0x11, 0x3D, 0x03, 0x73] 64 =
      .inr [0x61, 0x62, 0x63, 0x61, 0x62, 0x63, 0x61, 0x62, 0x63] := by decide +kernel

/-- V11: a dynamic block. -/
theorem test_inflate_dynamic :
    verdict [0x78, 0xDA, 0x0D, 0xC0, 0x81, 0x00, 0x00, 0x00, 0x00, 0x80, 0x20, 0xB6, 0xFC, 0xA5, 0x3E,
      0x0B, 0x02, 0x8E, 0x01, 0x05] 64 = .inr [0x41, 0x41, 0x41, 0x41] := by decide +kernel

/-- E12, wrong check value, with the limits of section 4.3: the limit is met before the trailer is read. -/
theorem test_inflate_check_value :
    verdict [0x78, 0xDA, 0xDB, 0xB9, 0x18, 0x00, 0x02, 0x17, 0x01, 0x5C] 2 = .inl .corruptData ∧
    verdict [0x78, 0xDA, 0xDB, 0xB9, 0x18, 0x00, 0x02, 0x17, 0x01, 0x5C] 1 =
      .inl .decompressionLimitExceeded := by decide +kernel

/-- E1, E9, E13, E14. -/
theorem test_inflate_refuses :
    verdict [] 64 = .inl .corruptData ∧
    verdict [0x78, 0xDA, 0x07, 0x00, 0x00, 0x00, 0x00, 0x01] 64 = .inl .corruptData ∧
    verdict [0x78, 0xDA, 0x03, 0x02, 0x00, 0x00, 0x00, 0x00, 0x01] 64 = .inl .corruptData ∧
    verdict [0x78, 0xDA, 0x03, 0x00, 0x00, 0x00, 0x00, 0x01, 0x00] 64 = .inl .corruptData := by
  decide +kernel

/-- The Adler-32 values of section 4.1. -/
theorem test_adler32 :
    adler32 [] = 0x00000001 ∧ adler32 [0xB9, 0xA3] = 0x0217015D ∧
    adler32 [0x61, 0x62, 0x63] = 0x024D0127 := by decide +kernel

theorem test_compressRef :
    compressRef [] = [0x78, 0xDA, 0x03, 0x00, 0x00, 0x00, 0x00, 0x01] ∧
    compressRef [0x8F, 0x90] = [0x78, 0xDA, 0xEB, 0x9F, 0x00, 0x00, 0x01, 0xB0, 0x01, 0x20] ∧
    compressRef [0x00, 0xFF, 0x10] =
      [0x78, 0xDA, 0x63, 0xF8, 0x2F, 0x00, 0x00, 0x02, 0x11, 0x01, 0x10] := by decide +kernel

/-! ### States -/

/-- A builder of width 2 that holds the codes 0, 1, 2 (example of 43_builder_commands.md R171), with one byte
in the compressed buffer. -/
def open2 : State :=
  { State.reset with phase := .opened, width := 2, count := 3, plen := 1, pbuf := [(0, 0x24)],
                     cbuf := [(0, 0x78)], clen := 1 }

/-- The same builder finalized (95_test_vectors.md section 5: the stream of `24`). -/
def built2 : State :=
  { open2 with
    phase := .built, clen := 9
    cbuf := Memory.writeRange [] 0 [0x78, 0xDA, 0x53, 0x01, 0x00, 0x00, 0x25, 0x00, 0x25] }

/-- A block of one byte of packed and eight bytes of compressed buffer, whose builder of width 8 is full. -/
def full8 : State :=
  { State.reset with cfg := ⟨1, 8, 0, .reference⟩, phase := .opened, width := 8, count := 1, plen := 1,
                     pbuf := [(0, 5)] }

/-- The same with a ninth byte of compressed buffer, so that `BFIN` fits and `DNEW` is over the limit. -/
def limited8 : State := { full8 with cfg := ⟨1, 9, 0, .reference⟩ }

/-- The decoder of V1 at width 1 (example of 44_decoder_commands.md R180). -/
def dec1 : State :=
  { State.reset with
    phase := .dec, width := 1, plen := 2, clen := 10, pbuf := [(0, 0xB9), (1, 0xA3)]
    cbuf := Memory.writeRange [] 0 [0x78, 0xDA, 0xDB, 0xB9, 0x18, 0x00, 0x02, 0x17, 0x01, 0x5D] }

/-- The reset state with the 96 bytes of the compressed buffer in use, all 0. -/
def fullC : State := { State.reset with clen := 96 }

/-- The host presents a word. -/
def State.given (s : State) (w : PortWord) : State := { s with host := [.command w] }

/-- What the block answers to a word. -/
def answer (s : State) (w : PortWord) : Option PortWord :=
  match step (State.given s w) with
  | .next t => t.rsp
  | _ => none

/-- The state after a word, or the state itself where there is none. -/
def after (s : State) (w : PortWord) : State :=
  match step (State.given s w) with
  | .next t => t
  | _ => s

/-! ### One step (95_test_vectors.md section 3 and the examples of the rules) -/

theorem test_reset_answers :
    answer State.reset 0x0200000000000000 = some 0 ∧
    answer State.reset 0x2200000000000000 = some 0x0900000000000000 ∧
    answer State.reset 0x2100000000000000 = some 0x0900000000000000 ∧
    answer State.reset 0x1200000000000000 = some 0x0900000000000000 ∧
    answer State.reset 0x4100000000000000 = some 0x0300000000000000 ∧
    answer State.reset 0x3300000000000000 = some 0x0300000000000000 ∧
    answer State.reset 0x2000000000000001 = some 0x0500000000000000 := by decide +kernel

theorem test_rst : (after dec1 0x0100000000000000).phase = .idle ∧
    (after dec1 0x0100000000000000).width = 0 ∧ (after dec1 0x0100000000000000).plen = 0 ∧
    (after dec1 0x0100000000000000).clen = 0 := by decide +kernel

/-- `RST` with `ARG` = 1 resets nothing (R190, R193). -/
theorem test_rst_malformed : answer dec1 0x0100000000000001 = some 0x0A00000000000000 ∧
    (after dec1 0x0100000000000001).phase = .dec := by decide +kernel

/-- Examples of R191: width 2 built, width 1 decoding. -/
theorem test_stat : answer built2 0x0200000000000000 = some 0x22 ∧
    answer dec1 0x0200000000000000 = some 0x13 := by decide +kernel

theorem test_bnew : (after dec1 0x1000000000000004).phase = .opened ∧
    (after dec1 0x1000000000000004).width = 4 ∧ (after dec1 0x1000000000000004).plen = 0 ∧
    (after dec1 0x1000000000000004).clen = 10 := by decide +kernel

theorem test_bnew_refuses : answer open2 0x1000000000000010 = some 0x0100000000000000 ∧
    (after open2 0x1000000000000010).count = 3 := by decide +kernel

/-- A fourth code goes into lane 3 of the byte: 0 + 1 × 4 + 2 × 16 + 3 × 64 (40_bitpacker.md R81). -/
theorem test_badd : (after open2 0x1100000000000003).pbuf = [(0, 0xE4)] ∧
    (after open2 0x1100000000000003).count = 4 ∧ (after open2 0x1100000000000003).plen = 1 := by
  decide +kernel

theorem test_badd_errors : answer open2 0x1100000000000004 = some 0x0200000000000000 ∧
    answer built2 0x1100000000000004 = some 0x0400000000000000 ∧
    answer dec1 0x1100000000000001 = some 0x0900000000000000 ∧
    answer full8 0x1100000000000000 = some 0x0800000000000000 := by decide +kernel

/-- The reference stream of `24` (section 5). -/
theorem test_bfin : answer open2 0x1200000000000000 = some 9 ∧
    (after open2 0x1200000000000000).compressed =
      [0x78, 0xDA, 0x53, 0x01, 0x00, 0x00, 0x25, 0x00, 0x25] ∧
    (after open2 0x1200000000000000).phase = .built := by decide +kernel

theorem test_bfin_errors : answer built2 0x1200000000000000 = some 0x0400000000000000 ∧
    answer full8 0x1200000000000000 = some 0x0800000000000000 ∧
    (after full8 0x1200000000000000).phase = .opened := by decide +kernel

theorem test_bcnt : answer open2 0x1300000000000000 = some 3 ∧ answer built2 0x1300000000000000 = some 3 ∧
    answer dec1 0x1300000000000000 = some 0x0900000000000000 := by decide +kernel

/-- V1 decoded again at width 2. -/
theorem test_dnew : answer dec1 0x2000000000000002 = some 2 ∧
    (after dec1 0x2000000000000002).packed = [0xB9, 0xA3] ∧
    (after dec1 0x2000000000000002).width = 2 ∧ (after dec1 0x2000000000000002).clen = 10 := by
  decide +kernel

/-- A refused width keeps the decoder; a bad stream destroys the context (R180). -/
theorem test_dnew_errors : answer dec1 0x2000000000000003 = some 0x0100000000000000 ∧
    (after dec1 0x2000000000000003).phase = .dec ∧
    answer open2 0x2000000000000002 = some 0x0500000000000000 ∧
    (after open2 0x2000000000000002).phase = .idle ∧ (after open2 0x2000000000000002).clen = 1 := by
  decide +kernel

/-- The examples of R181. -/
theorem test_get : answer dec1 0x2100000000000000 = some 1 ∧ answer dec1 0x2100000000000001 = some 0 ∧
    answer dec1 0x2100000000000009 = some 1 ∧ answer dec1 0x210000000000000F = some 1 ∧
    answer dec1 0x2100000000000010 = some 0x0300000000000000 ∧
    answer dec1 0x21000000FFFFFFFF = some 0x0300000000000000 := by decide +kernel

/-- A builder is read too: its padding is 0 (R181, R182). -/
theorem test_get_len_builder : answer open2 0x2100000000000002 = some 2 ∧
    answer open2 0x2100000000000003 = some 0 ∧ answer open2 0x2200000000000000 = some 4 := by
  decide +kernel

theorem test_len : answer dec1 0x2200000000000000 = some 16 := by decide +kernel

theorem test_cclr : (after built2 0x3000000000000000).clen = 0 ∧
    (after built2 0x3000000000000000).phase = .built := by decide +kernel

theorem test_cput : (after open2 0x31000000000000DA).compressed = [0x78, 0xDA] ∧
    answer open2 0x31000000000000DA = some 0 := by decide +kernel

/-- The last line of section 3, and a malformed word that stores nothing (R193). -/
theorem test_cput_refuses : answer fullC 0x3100000000000000 = some 0x0800000000000000 ∧
    answer open2 0x3100000000000100 = some 0x0A00000000000000 ∧
    (after open2 0x3100000000000100).clen = 1 := by decide +kernel

theorem test_clen_plen : answer dec1 0x3200000000000000 = some 10 ∧
    answer dec1 0x4000000000000000 = some 2 := by decide +kernel

/-- The examples of 42_compress.md R161. -/
theorem test_cget : answer dec1 0x3300000000000000 = some 0x78 ∧ answer dec1 0x3300000000000009 = some 0x5D ∧
    answer dec1 0x330000000000000A = some 0x0300000000000000 := by decide +kernel

/-- The examples of 40_bitpacker.md R91. -/
theorem test_pget : answer open2 0x4100000000000000 = some 0x24 ∧
    answer open2 0x4100000000000001 = some 0x0300000000000000 := by decide +kernel

/-- An illegal word and the next one (45_system_commands.md R192). -/
theorem test_illegal_word : answer dec1 0x0000000000000000 = some 0x0A00000000000000 ∧
    answer dec1 0xFF00000000000000 = some 0x0A00000000000000 ∧
    (after dec1 0xFF00000000000000).phase = .dec := by decide +kernel

/-- A word placed for the next step is the one the step runs. -/
theorem test_withFetchWord :
    step (State.reset.withFetchWord 64 0x3100000000000078) =
      .next { State.reset with cbuf := [(0, 0x78)], clen := 1, rsp := some 0 } := rfl

/-- More than 64 bits are no command word (00_scope.md R18): none is presented. -/
theorem test_withFetchWord_too_wide :
    State.reset.withFetchWord 72 0x3100000000000078 = State.reset := rfl

/-! ### States that meet the invariants -/

theorem open2_invariants : Invariants open2 where
  params := by decide
  pbufForm := by decide
  cbufForm := by decide
  pbufWithin := by decide
  cbufWithin := by decide
  i1 := by decide
  i2 := by decide
  i3 := by decide
  i4 := by decide
  i5 := fun _ => by decide
  i6 := fun _ => ⟨[0, 1, 2], by decide, by decide, rfl⟩
  i7 := by decide
  i8 := by decide

theorem built2_invariants : Invariants built2 where
  params := by decide
  pbufForm := by decide
  cbufForm := by decide
  pbufWithin := by decide
  cbufWithin := by decide
  i1 := by decide
  i2 := by decide
  i3 := by decide
  i4 := by decide
  i5 := fun _ => by decide
  i6 := fun _ => ⟨[0, 1, 2], by decide, by decide, rfl⟩
  i7 := by decide
  i8 := by decide

theorem full8_invariants : Invariants full8 where
  params := by decide
  pbufForm := by decide
  cbufForm := by decide
  pbufWithin := by decide
  cbufWithin := by decide
  i1 := by decide
  i2 := by decide
  i3 := by decide
  i4 := by decide
  i5 := fun _ => by decide
  i6 := fun _ => ⟨[5], by decide, by decide, rfl⟩
  i7 := by decide
  i8 := by decide

theorem limited8_invariants : Invariants limited8 where
  params := by decide
  pbufForm := by decide
  cbufForm := by decide
  pbufWithin := by decide
  cbufWithin := by decide
  i1 := by decide
  i2 := by decide
  i3 := by decide
  i4 := by decide
  i5 := fun _ => by decide
  i6 := fun _ => ⟨[5], by decide, by decide, rfl⟩
  i7 := by decide
  i8 := by decide

theorem dec1_invariants : Invariants dec1 where
  params := by decide
  pbufForm := by decide
  cbufForm := by decide
  pbufWithin := by decide
  cbufWithin := by decide
  i1 := by decide
  i2 := by decide
  i3 := by decide
  i4 := by decide
  i5 := fun h => absurd h (by simp [State.hasBuilder, dec1])
  i6 := fun h => absurd h (by simp [State.hasBuilder, dec1])
  i7 := by decide
  i8 := by decide

theorem fullC_invariants : Invariants fullC where
  params := by decide
  pbufForm := by decide
  cbufForm := by decide
  pbufWithin := by decide
  cbufWithin := by decide
  i1 := by decide
  i2 := by decide
  i3 := by decide
  i4 := by decide
  i5 := fun h => absurd h (by simp [State.hasBuilder, fullC, State.reset])
  i6 := fun h => absurd h (by simp [State.hasBuilder, fullC, State.reset])
  i7 := by decide
  i8 := by decide

/-! ### Witnesses: each statement's hypotheses are met together, each clause at a boundary -/

theorem witness_EncodeOfDecodeIsTheWord :
    decode 0x11000000FFFFFFFF = .ok (.badd 0xFFFFFFFF) ∧ decode 0x31000000000000FF = .ok (.cput 0xFF) :=
  ⟨rfl, rfl⟩

theorem witness_LegalWordsAreThoseOfTheFormats :
    LegalForm 0x0100000000000000 ∧ LegalForm 0x41000000FFFFFFFF ∧ LegalForm 0x31000000000000FF ∧
    ¬ LegalForm 0x3100000000000100 ∧ ¬ LegalForm 0x0100000000000001 ∧ ¬ LegalForm 0x4200000000000000 ∧
    ¬ LegalForm 0x4100000100000000 := by
  unfold LegalForm
  exact ⟨by decide, by decide, by decide, by decide, by decide, by decide, by decide⟩

theorem witness_StepRunsTheDecodedCommand :
    (State.given dec1 0x2100000000000001).host = .command 0x2100000000000001 :: [] ∧
    decode 0x2100000000000001 = .ok (.get 1) := ⟨rfl, rfl⟩

theorem witness_IllegalWordsAnswerIllegalCommand :
    (State.given dec1 0x0300000000000000).host = .command 0x0300000000000000 :: [] ∧
    ¬ LegalForm 0x0300000000000000 ∧ ¬ LegalForm 0x1200000000000001 ∧
    ¬ LegalForm 0x3100000000000100 ∧ ¬ LegalForm 0x1000000100000001 := by
  unfold LegalForm; exact ⟨rfl, by decide, by decide, by decide, by decide⟩

/-- A block in use whose reset input is asserted while a `DNEW` is executing. -/
theorem witness_ResetInputLeavesResetState :
    ({ dec1 with host := [.reset (some 0x2000000000000001)] } : State).host =
      .reset (some 0x2000000000000001) :: [] := rfl

theorem witness_IdleBlockHoldsItsState : dec1.host = [] := rfl

theorem given_invariants {s : State} (h : Invariants s) (w : PortWord) : Invariants (State.given s w) := by
  cases h; constructor <;> assumption

theorem witness_EveryWordGetsOneResponse :
    Invariants (State.given open2 0x1100000000000003) ∧
    (State.given open2 0x1100000000000003).host = .command 0x1100000000000003 :: [] ∧
    decode 0x1100000000000003 = .ok (.badd 3) := ⟨given_invariants open2_invariants _, rfl, rfl⟩

/-- An illegal word: the highest status there is. -/
theorem witness_ReservedStatusesNeverAppear :
    (State.given dec1 0).host = .command 0 :: [] ∧
    step (State.given dec1 0) = .next { dec1 with rsp := some 0x0A00000000000000 } ∧
    responseStatus 0x0A00000000000000 = 10 := ⟨rfl, rfl, by decide⟩

/-- The code that fills the byte of a builder. -/
theorem witness_StepKeepsTheInvariants :
    Invariants (State.given open2 0x1100000000000003) ∧
    step (State.given open2 0x1100000000000003) =
      .next { open2 with pbuf := [(0, 0xE4)], count := 4, rsp := some 0 } :=
  ⟨given_invariants open2_invariants _, rfl⟩

theorem witness_InvariantStatesNeverStop : Invariants (State.given full8 0x1100000000000000) :=
  given_invariants full8_invariants _

/-- `open2` with another byte after its packed buffer and after its compressed buffer. -/
def open2Beyond : State := { open2 with pbuf := [(0, 0x24), (1, 7)], cbuf := [(0, 0x78), (1, 9)] }

theorem witness_BytesAboveTheLengthsAreHidden :
    Invariants open2 ∧ Invariants open2Beyond ∧ SameVisible open2 open2Beyond ∧ open2 ≠ open2Beyond := by
  have h := open2_invariants
  refine ⟨h, ⟨h.params, by decide, by decide, by decide, by decide, h.i1, h.i2, h.i3, h.i4, h.i5,
    fun _ => ⟨[0, 1, 2], by decide, by decide, rfl⟩, h.i7, h.i8⟩, ?_, by decide⟩
  constructor <;> first | rfl | decide

/-- A command that fails and changes nothing, and a `DNEW` that fails while decompressing. -/
theorem witness_FailedCommandsHaveNoEffect :
    exec (.badd 4) open2 = .next { open2 with rsp := some 0x0200000000000000 } ∧
    responseStatus 0x0200000000000000 ≠ 0 ∧
    ∃ t, exec (.dnew 2) open2 = .next t ∧ t.rsp = some 0x0500000000000000 ∧
      responseStatus 0x0500000000000000 ≠ 0 :=
  ⟨rfl, by decide, _, rfl, rfl, by decide⟩

theorem witness_ReadingHasNoSideEffect :
    exec (.get 15) dec1 = .next { dec1 with rsp := some 1 } ∧ exec .len dec1 = .next { dec1 with rsp := some 16 } :=
  ⟨rfl, rfl⟩

/-- Each column of the table that can change does change somewhere. -/
theorem witness_OnlyTheListedCommandsWrite :
    exec (.badd 3) open2 = .next { open2 with pbuf := [(0, 0xE4)], count := 4, rsp := some 0 } ∧
    exec (.cput 0xDA) open2 = .next { open2 with cbuf := [(0, 0x78), (1, 0xDA)], clen := 2, rsp := some 0 } ∧
    exec (.bnew 1) dec1 = .next
      { dec1 with phase := .opened, width := 1, count := 0, plen := 0, rsp := some 0 } := ⟨rfl, rfl, rfl⟩

/-- The next state of an outcome, in a form that can be compared. -/
def nextState : Result → Option State
  | .next t => some t
  | _ => none

theorem eq_next_of_nextState {o : Result} {t : State} (h : nextState o = some t) : o = .next t := by
  cases o <;> simp_all [nextState]

theorem witness_StoringCommandsFrame :
    open2.pbuf.wf = true ∧ open2.cbuf.wf = true ∧ dec1.pbuf.wf = true ∧ dec1.cbuf.wf = true ∧
    (∃ t, exec (.badd 3) open2 = .next t) ∧ (∃ t, exec .bfin open2 = .next t) ∧
    (∃ t, exec (.cput 1) open2 = .next t) ∧ exec (.dnew 1) dec1 = .next { dec1 with rsp := some 2 } ∧
    inflate dec1.compressed dec1.cfg.maxExpanded = .ok [0xB9, 0xA3] :=
  ⟨rfl, rfl, rfl, rfl, ⟨_, rfl⟩, ⟨_, rfl⟩, ⟨_, rfl⟩, eq_next_of_nextState (by decide +kernel),
    by decide +kernel⟩

theorem witness_PhaseTransitions :
    (∃ t, exec (.bnew 8) dec1 = .next t) ∧ (∃ t, exec (.bnew 3) dec1 = .next t) ∧
    (∃ t, exec (.badd 0) built2 = .next t) ∧ (∃ t, exec .bfin open2 = .next t) ∧
    (∃ t, exec .bfin full8 = .next t) ∧ ∃ t, exec (.dnew 1) open2 = .next t :=
  ⟨⟨_, rfl⟩, ⟨_, rfl⟩, ⟨_, rfl⟩, ⟨_, rfl⟩, ⟨_, rfl⟩, ⟨_, rfl⟩⟩

theorem witness_FinalizedBuilderStaysFinalized :
    built2.phase = .built ∧
    (∀ i ∈ [Instr.badd 1, .bfin, .cclr, .get 3], i ≠ .rst ∧ (∀ w, i ≠ .bnew w) ∧ ∀ w, i ≠ .dnew w) ∧
    execAll [.badd 1, .bfin, .cclr, .get 3] built2 = .next { built2 with clen := 0, rsp := some 0 } :=
  ⟨rfl, by simp, rfl⟩

theorem witness_AnswersInTheResetState :
    State.reset.phase = .idle ∧ State.reset.width = 0 ∧ State.reset.count = 0 ∧ State.reset.plen = 0 ∧
    State.reset.clen = 0 ∧ State.reset.cfg.wf ∧ LegalWidth 8 ∧ ¬ LegalWidth 0 ∧ ¬ LegalWidth 16 := by
  decide

theorem witness_StatAnswersPhaseAndWidth : Invariants built2 := built2_invariants

theorem witness_BnewMakesAnEmptyBuilder :
    LegalWidth 1 ∧ LegalWidth 8 ∧ ¬ LegalWidth 0 ∧ ¬ LegalWidth 3 ∧ ¬ LegalWidth 0x10 ∧
    ¬ LegalWidth 0x80000001 := by decide

/-- The largest code into the last lane of the last byte. -/
theorem witness_BaddAppendsTheCode :
    Invariants { open2 with cfg := ⟨1, 8, 0, .reference⟩ } ∧ open2.phase = .opened ∧
    open2.holdsCodes [0, 1, 2] ∧ (3 : Word).toNat < 2 ^ open2.width.toNat ∧
    open2.count.toNat * open2.width.toNat / 8 < 1 := by
  refine ⟨?_, rfl, ⟨by decide, by decide, rfl⟩, by decide, by decide⟩
  have h := open2_invariants
  exact ⟨by decide, h.pbufForm, h.cbufForm, by decide, by decide, h.i1, h.i2, h.i3, h.i4, h.i5, h.i6,
    by decide, by decide⟩

/-- A byte already begun, and a new byte. -/
theorem witness_BaddWritesOneByte :
    open2.phase = .opened ∧ (3 : Word).toNat < 2 ^ open2.width.toNat ∧ open2.pbuf.wf = true ∧
    open2.count.toNat * open2.width.toNat / 8 < open2.cfg.pbufBytes ∧
    open2.count.toNat * open2.width.toNat % 8 ≠ 0 ∧
    ({ full8 with cfg := ⟨2, 8, 0, .reference⟩ } : State).phase = .opened ∧
    (255 : Word).toNat < 2 ^ full8.width.toNat ∧ full8.pbuf.wf = true ∧
    full8.count.toNat * full8.width.toNat / 8 < 2 ∧
    full8.count.toNat * full8.width.toNat % 8 = 0 := by decide

theorem witness_BaddErrorsInOrder :
    State.reset.phase = .idle ∧ dec1.phase = .dec ∧ built2.phase = .built ∧ open2.phase = .opened ∧
    2 ^ open2.width.toNat ≤ (4 : Word).toNat ∧ full8.phase = .opened ∧
    (255 : Word).toNat < 2 ^ full8.width.toNat ∧
    full8.count.toNat * full8.width.toNat = 8 * full8.cfg.pbufBytes := by decide

/-- Nine bytes of output, and nine bytes of room. -/
theorem witness_BfinCompressesTheBuffer :
    Invariants limited8 ∧ limited8.phase = .opened ∧
    (compress limited8.cfg limited8.packed).length ≤ limited8.cfg.cbufBytes :=
  ⟨limited8_invariants, rfl, by decide +kernel⟩

/-- Nine bytes of output, and eight bytes of room. -/
theorem witness_BfinErrorsInOrder :
    State.reset.phase = .idle ∧ dec1.phase = .dec ∧ built2.phase = .built ∧ full8.phase = .opened ∧
    full8.plen.toNat ≤ full8.cfg.pbufBytes ∧
    full8.cfg.cbufBytes < (compress full8.cfg full8.packed).length :=
  ⟨rfl, rfl, rfl, rfl, by decide, by decide +kernel⟩

theorem witness_BcntAnswersTheCount :
    open2.phase = .opened ∧ built2.phase = .built ∧ State.reset.phase = .idle ∧ dec1.phase = .dec :=
  ⟨rfl, rfl, rfl, rfl⟩

theorem witness_BuilderCodesAreRecoverable :
    Invariants built2 ∧ built2.hasBuilder ∧ built2.holdsCodes [0, 1, 2] ∧ 2 < [0, 1, 2].length :=
  ⟨built2_invariants, .inr rfl, ⟨by decide, by decide, rfl⟩, by decide⟩

/-- A stream that is accepted, and one that is not, with a legal width; an illegal width. -/
theorem witness_DnewDecompresses :
    Invariants dec1 ∧ LegalWidth 8 ∧ ¬ LegalWidth 9 ∧
    inflate dec1.compressed dec1.cfg.maxExpanded = .ok [0xB9, 0xA3] ∧
    Invariants open2 ∧ inflate open2.compressed open2.cfg.maxExpanded = .error .corruptData :=
  ⟨dec1_invariants, by decide, by decide, by decide +kernel, open2_invariants, by decide +kernel⟩

/-- The last index that is answered and the first that is not, and a block with no context. -/
theorem witness_GetAnswersUnpackOne :
    Invariants dec1 ∧ dec1.phase ≠ .idle ∧ unpackOne dec1.packed dec1.width.toNat 15 = .ok 1 ∧
    unpackOne dec1.packed dec1.width.toNat 16 = .error .indexOutOfBounds ∧
    Invariants fullC ∧ fullC.phase = .idle :=
  ⟨dec1_invariants, by decide, rfl, rfl, fullC_invariants, rfl⟩

theorem witness_GetSucceedsExactlyBelowLen :
    Invariants dec1 ∧ dec1.phase ≠ .idle ∧ Answers .len dec1 .ok 16 ∧
    (15 : Word).toNat < (16 : Word).toNat ∧ (16 : Word).toNat ≤ (0xFFFFFFFF : Word).toNat :=
  ⟨dec1_invariants, by decide, ⟨_, rfl, rfl⟩, by decide, by decide⟩

theorem witness_LenAnswersTheCapacity :
    Invariants dec1 ∧ dec1.phase ≠ .idle ∧ Invariants fullC ∧ fullC.phase = .idle :=
  ⟨dec1_invariants, by decide, fullC_invariants, rfl⟩

/-- A full buffer, and one with room for exactly one byte. -/
theorem witness_CputAppendsTheByte :
    Invariants fullC ∧ fullC.clen.toNat = fullC.cfg.cbufBytes ∧
    Invariants { fullC with clen := 95 } ∧ ({ fullC with clen := 95 } : State).clen.toNat < fullC.cfg.cbufBytes := by
  have h := fullC_invariants
  exact ⟨h, by decide, ⟨h.params, h.pbufForm, h.cbufForm, h.pbufWithin, h.cbufWithin, h.i1, h.i2, h.i3, h.i4,
    h.i5, h.i6, h.i7, by decide⟩, by decide⟩

/-- An address below each length, and the first at it. -/
theorem witness_ByteCommandsAnswerTheByte :
    Invariants dec1 ∧ dec1.compressed[9]? = some 0x5D ∧ dec1.compressed[10]? = none ∧
    dec1.packed[1]? = some 0xA3 ∧ dec1.packed[2]? = none :=
  ⟨dec1_invariants, rfl, rfl, rfl, rfl⟩

theorem witness_UnpackOfPackIsTheCode :
    pack [1, 2, 3, 0, 2] 2 = .ok [0x39, 0x02] ∧ 4 < [1, 2, 3, 0, 2].length ∧
    pack [0, 255, 16] 8 = .ok [0x00, 0xFF, 0x10] := ⟨rfl, by decide, rfl⟩

/-- Five codes of width 2 in two bytes: indices 5 to 7 are padding, 8 is the capacity. -/
theorem witness_PaddingIsZeroUpToTheCapacity :
    pack [3, 3, 3, 3, 3] 2 = .ok [0xFF, 0x03] ∧ [3, 3, 3, 3, 3].length ≤ 5 ∧
    7 < cap [(0xFF : Byte), 0x03].length 2 ∧ cap [(0xFF : Byte), 0x03].length 2 ≤ 8 :=
  ⟨rfl, by decide, by decide, by decide⟩

/-- A byte boundary, and not one. -/
theorem witness_PackOfAppend :
    pack [12, 3] 4 = .ok [0x3C] ∧ [12, 3].length * 4 % 8 = 0 ∧ 15 < 2 ^ 4 ∧
    pack [1, 2, 3] 4 = .ok [0x21, 0x03] ∧ [1, 2, 3].length * 4 % 8 ≠ 0 :=
  ⟨rfl, by decide, by decide, rfl, by decide⟩

theorem witness_PackIsOntoAndInjective :
    [12, 3].length = [12, 3].length ∧ pack [12, 3] 4 = .ok [0x3C] ∧ pack [12, 3] 4 = .ok [0x3C] :=
  ⟨rfl, rfl, rfl⟩

theorem witness_PackRefusesLargeCodes :
    (∃ c ∈ [0, 4], 2 ^ 2 ≤ c) ∧ ∀ c ∈ [0, 3], c < 2 ^ 2 := by decide

theorem witness_CodesNeverStraddleBytes : (4 : Nat) = 1 ∨ 4 = 2 ∨ 4 = 4 ∨ 4 = 8 := by decide

/-- V1 at its own length, and one limit below it. -/
theorem witness_LimitOnlyBoundsTheOutput :
    inflate [0x78, 0xDA, 0xDB, 0xB9, 0x18, 0x00, 0x02, 0x17, 0x01, 0x5D] 2 = .ok [0xB9, 0xA3] ∧
    [(0xB9 : Byte), 0xA3].length ≤ 2 ∧ ¬ [(0xB9 : Byte), 0xA3].length ≤ 1 :=
  ⟨by decide +kernel, by decide, by decide⟩

theorem witness_ExampleStreamDecodes : 2 ≤ 2 := by decide

/-- Exactly the fuel of R131, and exactly one per length still to read. -/
theorem witness_InflateNeverRunsOutOfFuel :
    8 * [(0x78 : Byte), 0xDA].length + 64 + 2 ≤ 82 ∧ 258 ≤ 256 + [8, 8].length := by decide

theorem witness_BytesAfterTheStreamAreCorrupt :
    inflate [0x78, 0xDA, 0x03, 0x00, 0x00, 0x00, 0x00, 0x01] 0 = .ok [] ∧ [(0 : Byte)] ≠ [] :=
  ⟨by decide +kernel, by decide⟩

theorem witness_TruncatedStreamsAreCorrupt :
    inflate [0x78, 0xDA, 0x03, 0x00, 0x00, 0x00, 0x00, 0x01] 0 = .ok [] ∧
    7 < [(0x78 : Byte), 0xDA, 0x03, 0x00, 0x00, 0x00, 0x00, 0x01].length := ⟨by decide +kernel, by decide⟩

theorem witness_ReferenceKernelIsLossless : [(0xB9 : Byte), 0xA3].length ≤ 2 := by decide

/-- Three codes, with exactly one byte of limit. -/
theorem witness_BuiltListsDecodeToTheirCodes :
    Invariants open2 ∧ open2.phase = .opened ∧ open2.holdsCodes [0, 1, 2] ∧ open2.cfg.kernel = .reference ∧
    (compress open2.cfg open2.packed).length ≤ open2.cfg.cbufBytes ∧
    packedLen [0, 1, 2].length open2.width.toNat ≤ open2.cfg.maxExpanded :=
  ⟨open2_invariants, rfl, ⟨by decide, by decide, rfl⟩, rfl, by decide +kernel, by decide⟩

/-- The other disjunct of the hypothesis on the kernel, as an equation on this buffer. -/
theorem witness_lossless_on_a_buffer :
    inflate (compress open2.cfg open2.packed) open2.cfg.maxExpanded = .ok open2.packed := by
  decide +kernel

/-- One code of width 8, and a limit of 0. -/
theorem witness_ListsBeyondTheLimitAreRefused :
    Invariants limited8 ∧ limited8.phase = .opened ∧ limited8.holdsCodes [5] ∧
    limited8.cfg.kernel = .reference ∧
    (compress limited8.cfg limited8.packed).length ≤ limited8.cfg.cbufBytes ∧
    limited8.cfg.maxExpanded < packedLen [5].length limited8.width.toNat :=
  ⟨limited8_invariants, rfl, ⟨by decide, by decide, rfl⟩, rfl, by decide +kernel, by decide⟩

end Sys2Proof.Tests
end

section
/-! PROOFS. `Inflate` never answers more bytes than its limit (41_inflate.md R107). A rule per way of building an
`Inf`; then, in the order of the definitions, the parts that read bits leave the output alone and the parts that
emit keep it within the limit. -/

namespace Sys2Proof.Machine

/-- Every value that `x` answers, an error aside, meets `P`. -/
def Ensures {α : Type} (x : Inf α) (P : α → Prop) : Prop := ∀ a, x = .ok a → P a

section Rules

variable {α β : Type} {P : α → Prop} {Q : β → Prop}

theorem Ensures.ok {a : α} (h : P a) : Ensures (.ok a) P := fun _ hb => Except.ok.inj hb ▸ h

theorem Ensures.error (e : InflateError) : Ensures (.error e) P := fun _ h => nomatch h

theorem Ensures.ite {c : Prop} [Decidable c] {x y : Inf α} (hx : Ensures x P) (hy : Ensures y P) :
    Ensures (if c then x else y) P := by
  split
  · exact hx
  · exact hy

theorem Ensures.bind {x : Inf α} {f : α → Inf β} (hx : Ensures x P) (hf : ∀ a, P a → Ensures (f a) Q) :
    Ensures (x >>= f) Q := by
  cases x with
  | error e => exact .error e
  | ok a => exact hf a (hx a rfl)

end Rules

/-! ### Reading leaves the output alone -/

/-- A part of `Inflate` that answers a value and the work after it: that work has the output of `k`. -/
def KeepsOut {α : Type} (k : Work) (x : Inf (α × Work)) : Prop := Ensures x fun r => r.2.out = k.out

/-- Two parts one after the other keep the output if each does. -/
theorem KeepsOut.bind {α β : Type} {k : Work} {x : Inf (α × Work)} {f : α × Work → Inf (β × Work)}
    (hx : KeepsOut k x) (hf : ∀ a k', KeepsOut k' (f (a, k'))) : KeepsOut k (x >>= f) :=
  Ensures.bind hx fun ⟨a, k'⟩ ho b hb => (hf a k' b hb).trans ho

theorem nextBit_keepsOut (k : Work) : KeepsOut k (nextBit k) := by
  unfold nextBit
  split
  · exact .error _
  · exact .ok rfl

theorem readBits_keepsOut (n : Nat) (k : Work) : KeepsOut k (readBits n k) := by
  induction n generalizing k with
  | zero => exact .ok rfl
  | succ n ih => exact (nextBit_keepsOut k).bind fun _ k => (ih k).bind fun _ _ => .ok rfl

theorem decodeSymFrom_keepsOut (t : List HuffmanCode) (n b code : Nat) (k : Work) :
    KeepsOut k (decodeSymFrom t n b code k) := by
  induction n generalizing b code k with
  | zero => exact .error _
  | succ n ih =>
    refine (nextBit_keepsOut k).bind fun v k' => ?_
    dsimp only
    split
    · exact .ok rfl
    · exact ih _ _ k'

theorem decodeSym_keepsOut (t : List HuffmanCode) (k : Work) : KeepsOut k (decodeSym t k) :=
  decodeSymFrom_keepsOut t 15 1 0 k

theorem readClLengths_keepsOut (ss cl : List Nat) (k : Work) : KeepsOut k (readClLengths ss cl k) := by
  induction ss generalizing cl k with
  | nil => exact .ok rfl
  | cons s ss ih => exact (readBits_keepsOut 3 k).bind fun _ k => ih _ k

theorem readRepeat_keepsOut (s : Nat) (ls : List Nat) (k : Work) : KeepsOut k (readRepeat s ls k) := by
  unfold readRepeat
  split
  · split
    · exact .error _
    · exact (readBits_keepsOut 2 k).bind fun _ _ => .ok rfl
  · exact .ite ((readBits_keepsOut 3 k).bind fun _ _ => .ok rfl)
      ((readBits_keepsOut 7 k).bind fun _ _ => .ok rfl)

theorem readLengths_keepsOut (cl : List HuffmanCode) (total fuel : Nat) (ls : List Nat) (k : Work) :
    KeepsOut k (readLengths cl total fuel ls k) := by
  induction fuel generalizing ls k with
  | zero => exact .ite (.ok rfl) (.error _)
  | succ fuel ih =>
    refine .ite (.ok rfl) ((decodeSym_keepsOut cl k).bind fun s k => .ite (ih _ k) ?_)
    exact (readRepeat_keepsOut s ls k).bind fun _ k => .ite (.error _) (ih _ k)

theorem readDynamicTables_keepsOut (k : Work) : KeepsOut k (readDynamicTables k) :=
  (readBits_keepsOut 5 k).bind fun _ k => (readBits_keepsOut 5 k).bind fun _ k =>
    (readBits_keepsOut 4 k).bind fun _ k => .ite (.error _) <|
      (readClLengths_keepsOut _ _ k).bind fun _ k => .ite (.error _) <|
        (readLengths_keepsOut _ _ _ _ k).bind fun _ _ => .ite (.ok rfl) (.error _)

theorem readBigEndian_keepsOut (n a : Nat) (k : Work) : KeepsOut k (readBigEndian n a k) := by
  induction n generalizing a k with
  | zero => exact .ok rfl
  | succ n ih => exact (readBits_keepsOut 8 k).bind fun _ k => ih _ k

/-! ### Emitting keeps the output within the limit -/

/-- The output has not passed the limit (R107). -/
def Work.Within (limit : Nat) (k : Work) : Prop := k.out.length ≤ limit

theorem Work.Within.of_out_eq {limit : Nat} {k k' : Work} (h : k.Within limit) (ho : k'.out = k.out) :
    k'.Within limit := by
  rwa [Work.Within, ho]

/-- What follows a read starts within the limit if the read does. -/
theorem KeepsOut.bind_within {α β : Type} {limit : Nat} {k : Work} {x : Inf (α × Work)}
    {f : α × Work → Inf β} {Q : β → Prop} (hx : KeepsOut k x) (hk : k.Within limit)
    (hf : ∀ a k', k'.Within limit → Ensures (f (a, k')) Q) : Ensures (x >>= f) Q :=
  Ensures.bind hx fun ⟨a, k'⟩ ho => hf a k' (hk.of_out_eq ho)

section Limit

variable {limit : Nat} {k : Work}

theorem readHeader_within (hk : k.Within limit) : Ensures (readHeader k) (Work.Within limit) :=
  (readBits_keepsOut 8 k).bind_within hk fun _ k hk => (readBits_keepsOut 8 k).bind_within hk fun _ _ hk =>
    .ite (.error _) (.ite (.error _) (.ite (.error _) (.ite (.error _) (.ok hk))))

theorem emit_within (b : Byte) (hk : k.Within limit) : Ensures (emit limit b k) (Work.Within limit) := by
  unfold emit
  split
  · exact .error _
  · rename_i hne
    have hlt : k.out.length < limit := Nat.lt_of_le_of_ne hk hne
    exact .ok (by simpa [Work.Within] using hlt)

theorem storedBytes_within (n : Nat) (hk : k.Within limit) :
    Ensures (storedBytes limit n k) (Work.Within limit) := by
  induction n generalizing k with
  | zero => exact .ok hk
  | succ n ih =>
    exact (readBits_keepsOut 8 k).bind_within hk fun b _ hk => (emit_within _ hk).bind fun _ hk => ih hk

theorem storedBlock_within (hk : k.Within limit) : Ensures (storedBlock limit k) (Work.Within limit) :=
  (readBits_keepsOut 16 (alignByte k)).bind_within hk fun _ k hk =>
    (readBits_keepsOut 16 k).bind_within hk fun _ _ hk => .ite (.error _) (storedBytes_within _ hk)

theorem copyMatch_within (d n : Nat) (hk : k.Within limit) :
    Ensures (copyMatch limit d n k) (Work.Within limit) := by
  induction n generalizing k with
  | zero => exact .ok hk
  | succ n ih =>
    unfold copyMatch
    split
    · exact .error _
    · exact (emit_within _ hk).bind fun _ hk => ih hk

theorem readMatch_within (dist : List HuffmanCode) (s : Nat) (hk : k.Within limit) :
    Ensures (readMatch dist limit s k) (Work.Within limit) :=
  .ite (.error _) <| (readBits_keepsOut _ k).bind_within hk fun _ k hk =>
    (decodeSym_keepsOut dist k).bind_within hk fun _ k hk => .ite (.error _) <|
      (readBits_keepsOut _ k).bind_within hk fun _ _ hk => .ite (.error _) (copyMatch_within _ _ hk)

theorem huffmanData_within (lit dist : List HuffmanCode) (fuel : Nat) (hk : k.Within limit) :
    Ensures (huffmanData lit dist limit fuel k) (Work.Within limit) := by
  induction fuel generalizing k with
  | zero => exact .error _
  | succ fuel ih =>
    refine (decodeSym_keepsOut lit k).bind_within hk fun s k hk => .ite ?_ (.ite (.ok hk) ?_)
    · exact (emit_within _ hk).bind fun _ hk => ih hk
    · exact (readMatch_within dist s hk).bind fun _ hk => ih hk

theorem readBlock_within (fuel : Nat) (hk : k.Within limit) :
    Ensures (readBlock fuel limit k) fun r => r.2.Within limit := by
  refine (readBits_keepsOut 1 k).bind_within hk fun _ k hk =>
    (readBits_keepsOut 2 k).bind_within hk fun _ k hk => .ite ?stored (.ite ?fixed (.ite ?dynamic (.error _)))
  case stored => exact (storedBlock_within hk).bind fun _ hk => .ok hk
  case fixed => exact (huffmanData_within _ _ fuel hk).bind fun _ hk => .ok hk
  case dynamic =>
    exact (readDynamicTables_keepsOut k).bind_within hk fun _ _ hk =>
      (huffmanData_within _ _ fuel hk).bind fun _ hk => .ok hk

theorem readBlocks_within (fuel n : Nat) (hk : k.Within limit) :
    Ensures (readBlocks fuel limit n k) (Work.Within limit) := by
  induction n generalizing k with
  | zero => exact .error _
  | succ n ih => exact (readBlock_within fuel hk).bind fun _ hk => .ite (.ok hk) (ih hk)

theorem readTrailer_within (hk : k.Within limit) : Ensures (readTrailer k) (Work.Within limit) :=
  (readBigEndian_keepsOut 4 0 (alignByte k)).bind_within hk fun _ _ hk =>
    .ite (.error _) (.ite (.error _) (.ok hk))

end Limit

/-- An accepted stream yields at most `limit` bytes (R107). -/
theorem inflate_length_le {c out : List Byte} {limit : Nat} (h : inflate c limit = .ok out) :
    out.length ≤ limit := by
  have hstart : Work.Within limit { pos := 0, rest := streamBits c, out := [] } := Nat.zero_le _
  have hall : Ensures (inflate c limit) fun out => out.length ≤ limit :=
    (readHeader_within hstart).bind fun _ hk => (readBlocks_within _ _ hk).bind fun _ hk =>
      (readTrailer_within hk).bind fun _ hk => .ok hk
  exact hall out h

end Sys2Proof.Machine
end

section
/-! PROOFS. No command stops from a state that meets the invariants (00_scope.md R18): every access a command makes
is below the capacity of its buffer (20_memory.md R51). -/

namespace Sys2Proof.Machine

variable {s : State}

/-- The command or step ends in a next state: no fault and no refusal. -/
def Proceeds (r : Result) : Prop := ∃ t, r = .next t

theorem respond_proceeds (st : Status) (r : Word) (s : State) : Proceeds (respond st r s) :=
  ⟨_, respond_eq st r s⟩

theorem raise_proceeds (e : Status) (s : State) : Proceeds (raise e s) := ⟨_, raise_eq e s⟩

theorem Proceeds.ite {c : Prop} [Decidable c] {x y : Result} (hx : c → Proceeds x)
    (hy : ¬ c → Proceeds y) : Proceeds (if c then x else y) := by
  split
  · exact hx ‹_›
  · exact hy ‹_›

/-- A buffer access that exists proceeds as what follows it does. -/
theorem Proceeds.attempt {α : Type} {r : Except Fault α} {a : α} {k : α → Result} (hr : r = .ok a)
    (hk : Proceeds (k a)) : Proceeds (attempt r k) := by
  rwa [hr, attempt_ok]

/-! ### The addresses of the accesses -/

/-- A builder with room for one more code puts it in a byte that exists: the next new byte, or the last one of
the packed buffer (43_builder_commands.md R171). -/
theorem appendOffset_div_lt (h : Invariants s) (ho : s.phase = .opened)
    (hroom : s.appendOffset % 8 = 0 → s.appendOffset / 8 ≠ s.cfg.pbufBytes) :
    s.appendOffset / 8 < s.cfg.pbufBytes := by
  have hlen : s.plen.toNat = (s.appendOffset + 7) / 8 := h.i5 (.inl ho)
  have hcap := h.i8.1
  omega

/-- The byte of a lane below the capacity is a byte of the packed buffer (40_bitpacker.md R87). -/
theorem lane_byte_lt_of_lt_cap {m w i : Nat} (h : i < cap m w) : i * w / 8 < m := by
  have hw : 0 < w := Nat.pos_of_ne_zero fun hw => by simp [cap, hw] at h
  have hbits : i * w + w ≤ 8 * m := Nat.succ_mul i w ▸ (Nat.le_div_iff_mul_le hw).1 h
  omega

/-! ### The commands that access a buffer -/

theorem execBadd_proceeds (h : Invariants s) (c : Word) : Proceeds (execBadd c s) := by
  refine .ite (fun _ => raise_proceeds _ _) fun hi => .ite (fun _ => raise_proceeds _ _) fun hb =>
    .ite (fun _ => raise_proceeds _ _) fun _ => .ite (fun hs => ?newByte) fun hs => ?lastByte
  case newByte =>
    refine .ite (fun _ => raise_proceeds _ _) fun hj => ?_
    have hlt := appendOffset_div_lt h (Phase.opened_of hi hb) fun _ => hj
    exact .attempt (State.writePacked_ok.2 ⟨hlt, rfl⟩) (respond_proceeds _ _ _)
  case lastByte =>
    have hlt := appendOffset_div_lt h (Phase.opened_of hi hb) fun hz => absurd hz hs
    exact .attempt (State.readPacked_ok.2 ⟨hlt, rfl⟩)
      (.attempt (State.writePacked_ok.2 ⟨hlt, rfl⟩) (respond_proceeds _ _ _))

theorem execBfin_proceeds (h : Invariants s) : Proceeds (execBfin s) :=
  .ite (fun _ => raise_proceeds _ _) fun _ => .ite (fun _ => raise_proceeds _ _) fun _ =>
    .attempt (State.packedBytes_ok.2 ⟨h.i8.1, rfl⟩) <| .ite (fun _ => raise_proceeds _ _) fun hz =>
      .attempt (State.storeCompressed_ok.2 ⟨Nat.le_of_not_lt hz, rfl⟩) (respond_proceeds _ _ _)

/-- What `DNEW` stores is within `MAX_EXPANDED`, which is within `PBUF_BYTES` (00_scope.md R6). -/
theorem execDnew_proceeds (h : Invariants s) (w : Word) : Proceeds (execDnew w s) := by
  refine .ite (fun _ => ?_) fun _ => raise_proceeds _ _
  refine .attempt (State.compressedBytes_ok.2 ⟨h.i8.2, rfl⟩) ?_
  split
  · exact raise_proceeds _ _
  · rename_i out hout
    obtain ⟨_, _, _, _, hmax⟩ := h.params
    have hfits : out.length ≤ s.cfg.pbufBytes := (inflate_length_le hout).trans hmax
    exact .attempt (State.storePacked_ok.2 ⟨hfits, rfl⟩) (respond_proceeds _ _ _)

theorem execGet_proceeds (h : Invariants s) (i : Word) : Proceeds (execGet i s) :=
  .ite (fun _ => raise_proceeds _ _) fun _ => .ite (fun _ => raise_proceeds _ _) fun hi =>
    have hlt := lane_byte_lt_of_lt_cap (Nat.lt_of_not_le hi)
    .attempt (State.readPacked_ok.2 ⟨hlt.trans_le h.i8.1, rfl⟩) (respond_proceeds _ _ _)

theorem execCput_proceeds (h : Invariants s) (b : Byte) : Proceeds (execCput b s) :=
  .ite (fun _ => raise_proceeds _ _) fun hne =>
    .attempt (State.writeCompressed_ok.2 ⟨Nat.lt_of_le_of_ne h.i8.2 hne, rfl⟩) (respond_proceeds _ _ _)

theorem execCget_proceeds (h : Invariants s) (a : Word) : Proceeds (execCget a s) :=
  .ite (fun _ => raise_proceeds _ _) fun ha =>
    .attempt (State.readCompressed_ok.2 ⟨(Nat.lt_of_not_le ha).trans_le h.i8.2, rfl⟩)
      (respond_proceeds _ _ _)

theorem execPget_proceeds (h : Invariants s) (a : Word) : Proceeds (execPget a s) :=
  .ite (fun _ => raise_proceeds _ _) fun ha =>
    .attempt (State.readPacked_ok.2 ⟨(Nat.lt_of_not_le ha).trans_le h.i8.1, rfl⟩) (respond_proceeds _ _ _)

/-! ### Every command, every step -/

theorem exec_proceeds (h : Invariants s) (i : Instr) : Proceeds (exec i s) := by
  cases i with
  | rst | stat | cclr | clen | plen => exact respond_proceeds _ _ _
  | bnew w => exact .ite (fun _ => respond_proceeds _ _ _) fun _ => raise_proceeds _ _
  | bcnt | len => exact .ite (fun _ => raise_proceeds _ _) fun _ => respond_proceeds _ _ _
  | badd c => exact execBadd_proceeds h c
  | bfin => exact execBfin_proceeds h
  | dnew w => exact execDnew_proceeds h w
  | get i => exact execGet_proceeds h i
  | cput b => exact execCput_proceeds h b
  | cget a => exact execCget_proceeds h a
  | pget a => exact execPget_proceeds h a

/-- The invariants do not speak of the host's inputs. -/
theorem Invariants.withHost (h : Invariants s) (i : List HostInput) : Invariants (s.withHost i) :=
  { h with }

theorem step_proceeds (h : Invariants s) : Proceeds (step s) := by
  unfold step
  split
  · exact ⟨s, rfl⟩
  · exact ⟨_, hardReset_eq _⟩
  · rename_i w t hf
    obtain ⟨rest, -, rfl⟩ := fetch_command.1 hf
    split
    · exact exec_proceeds (h.withHost rest) _
    · exact ⟨_, illegalCommand_eq _⟩

/-- Settles O15: every access a command makes is below its buffer's capacity, by `Invariants` and, for what `DNEW`
stores, by the limit of `Inflate`. -/
theorem invariantStatesNeverStop : Obligations.InvariantStatesNeverStop := fun _ h => step_proceeds h

end Sys2Proof.Machine
end

section
/-! PROOFS. What appending one code does to `Pack` (40_bitpacker.md R81, R88 L5): the loop reaches only bytes below
the packed length, so the codes before the new one fill the bytes they had. -/

namespace Sys2Proof.Machine

variable {w : Nat} {codes : List Nat} {b : List Byte}

/-! ### The loop of `Pack` -/

@[simp] theorem length_packFrom (w i : Nat) (codes : List Nat) (out : List Byte) :
    (packFrom w i codes out).length = out.length := by
  induction codes generalizing i out with
  | nil => rfl
  | cons c cs ih => simp [packFrom, ih]

/-- The last code of the loop is or-ed in last. -/
theorem packFrom_concat (w i : Nat) (codes : List Nat) (c : Nat) (out : List Byte) :
    packFrom w i (codes ++ [c]) out =
      (packFrom w i codes out).modify ((i + codes.length) * w / 8)
        (· ||| BitVec.ofNat 8 (c <<< ((i + codes.length) * w % 8))) := by
  induction codes generalizing i out with
  | nil => rfl
  | cons d ds ih =>
    rw [List.cons_append, packFrom, ih, packFrom, List.length_cons, Nat.add_right_comm, Nat.add_assoc]

theorem modify_append_of_lt {l r : List Byte} {k : Nat} (f : Byte → Byte) (h : k < l.length) :
    (l ++ r).modify k f = l.modify k f ++ r := by
  simp [List.modify_eq_set, List.getElem?_append_left h, List.set_append_left k _ h]

/-- Bytes after those of the codes stay as they were. -/
theorem packFrom_append (w i : Nat) (codes : List Nat) (out rest : List Byte)
    (h : ∀ k < codes.length, (i + k) * w / 8 < out.length) :
    packFrom w i codes (out ++ rest) = packFrom w i codes out ++ rest := by
  induction codes generalizing i out with
  | nil => rfl
  | cons c cs ih =>
    have hfirst : i * w / 8 < out.length := h 0 (Nat.succ_pos _)
    rw [packFrom, packFrom, modify_append_of_lt _ hfirst, ih]
    intro k hk
    rw [List.length_modify, Nat.add_assoc, Nat.add_comm 1 k]
    exact h (k + 1) (Nat.succ_lt_succ hk)

/-! ### The packed length -/

/-- The byte of a code is below the packed length. -/
theorem code_byte_lt_packedLen {n k : Nat} (hw : 0 < w) (hk : k < n) : k * w / 8 < packedLen n w := by
  have hbits : k * w + w ≤ n * w := Nat.succ_mul k w ▸ Nat.mul_le_mul_right w hk
  unfold packedLen
  omega

/-- On a byte boundary the next code begins a byte. -/
theorem packedLen_succ_of_boundary {n : Nat} (hw : w = 1 ∨ w = 2 ∨ w = 4 ∨ w = 8) (hn : n * w % 8 = 0) :
    packedLen n w = n * w / 8 ∧ packedLen (n + 1) w = n * w / 8 + 1 := by
  unfold packedLen
  rw [Nat.succ_mul]
  omega

/-- Within a byte the next code goes into the last byte, since the widths divide 8. -/
theorem packedLen_succ_of_within {n : Nat} (hw : w = 1 ∨ w = 2 ∨ w = 4 ∨ w = 8) (hn : n * w % 8 ≠ 0) :
    packedLen n w = n * w / 8 + 1 ∧ packedLen (n + 1) w = n * w / 8 + 1 := by
  unfold packedLen
  rw [Nat.succ_mul]
  rcases hw with rfl | rfl | rfl | rfl <;> omega

/-! ### `Pack` -/

/-- When `Pack` answers, and what. -/
theorem pack_ok : pack codes w = .ok b ↔
    (∀ c ∈ codes, c < 2 ^ w) ∧
      packFrom w 0 codes (List.replicate (packedLen codes.length w) 0) = b := by
  unfold pack
  split
  · rename_i hlarge
    obtain ⟨c, hc, hle⟩ : ∃ c ∈ codes, 2 ^ w ≤ c := by simpa using hlarge
    exact ⟨nofun, fun h => absurd (h.1 c hc) (Nat.not_lt_of_le hle)⟩
  · rename_i hsmall
    have hsmall : ∀ c ∈ codes, c < 2 ^ w := by simpa using hsmall
    simp only [Except.ok.injEq]
    exact ⟨fun h => ⟨hsmall, h⟩, fun h => h.2⟩

theorem pack_nil (w : Nat) : pack [] w = .ok [] :=
  pack_ok.2 ⟨nofun, by simp [packFrom, packedLen]⟩

theorem length_of_pack (h : pack codes w = .ok b) : b.length = packedLen codes.length w := by
  obtain ⟨-, rfl⟩ := pack_ok.1 h
  simp

/-- One more code: the bytes it brings in start at 0, and the code is or-ed into its byte at its shift. -/
theorem pack_concat {c d : Nat} (hw : 0 < w) (h : pack codes w = .ok b) (hc : c < 2 ^ w)
    (hd : packedLen (codes.length + 1) w = packedLen codes.length w + d) :
    pack (codes ++ [c]) w = .ok ((b ++ List.replicate d 0).modify (codes.length * w / 8)
      (· ||| BitVec.ofNat 8 (c <<< (codes.length * w % 8)))) := by
  obtain ⟨hcodes, rfl⟩ := pack_ok.1 h
  refine pack_ok.2 ⟨?_, ?_⟩
  · simpa [or_imp, forall_and] using ⟨hcodes, hc⟩
  · rw [packFrom_concat, Nat.zero_add, List.length_append, List.length_singleton, hd, List.replicate_add,
      packFrom_append]
    intro k hk
    simpa using code_byte_lt_packedLen hw hk

theorem pack_concat_of_boundary {c : Nat} (hw : w = 1 ∨ w = 2 ∨ w = 4 ∨ w = 8) (h : pack codes w = .ok b)
    (hc : c < 2 ^ w) (hn : codes.length * w % 8 = 0) :
    pack (codes ++ [c]) w = .ok (b ++ [BitVec.ofNat 8 c]) := by
  obtain ⟨hlen, hsucc⟩ := packedLen_succ_of_boundary hw hn
  have hb : b.length = codes.length * w / 8 := (length_of_pack h).trans hlen
  rw [pack_concat (d := 1) (by omega) h hc (by omega), ← hb, hn]
  simp [List.modify_eq_set]

theorem pack_concat_of_within {c : Nat} (hw : w = 1 ∨ w = 2 ∨ w = 4 ∨ w = 8) (h : pack codes w = .ok b)
    (hc : c < 2 ^ w) (hn : codes.length * w % 8 ≠ 0) :
    pack (codes ++ [c]) w = .ok (b.modify (codes.length * w / 8)
      (· ||| BitVec.ofNat 8 (c <<< (codes.length * w % 8)))) := by
  obtain ⟨hlen, hsucc⟩ := packedLen_succ_of_within hw hn
  simpa using pack_concat (d := 0) (by omega) h hc (by omega)

/-! ### The bytes of a memory after one byte was written -/

/-- A byte written after the first `n` is appended to them. -/
theorem Memory.readRange_write_end {m : Memory} (h : m.wf = true) (n : Nat) (x : Byte) :
    (m.write n x).readRange 0 (n + 1) = m.readRange 0 n ++ [x] := by
  have hbelow : (m.write n x).readRange 0 n = m.readRange 0 n :=
    Memory.readRange_congr fun a ha => by rw [Memory.read_write h, if_neg (Nat.ne_of_lt ha)]
  rw [← hbelow]
  simp [Memory.readRange, List.range'_1_concat, Memory.read_write h]

/-- A byte written over is modified in place. -/
theorem Memory.readRange_write_modify {m : Memory} (h : m.wf = true) (n k : Nat) (f : Byte → Byte) :
    (m.write k (f (m.read k))).readRange 0 n = (m.readRange 0 n).modify k f := by
  apply List.ext_getElem?
  intro i
  simp only [List.getElem?_modify, Memory.getElem?_readRange, Memory.read_write h, Nat.zero_add]
  by_cases hi : i < n
  · by_cases hk : i = k
    · simp [hk]
    · simp [hi, hk, Ne.symm hk]
  · simp [hi]

end Sys2Proof.Machine
end

section
/-! PROOFS. One step by what the host presents: an equation per input (20_memory.md R52, 70_reset_and_hazards.md R240,
60_exceptions.md R230). -/

namespace Sys2Proof.Machine

variable {s : State} {w : PortWord} {rest : List HostInput}

theorem step_of_no_input (h : s.host = []) : step s = .next s := by
  have hf : fetch s = .nothing := fetch_nothing.2 h
  simp only [step, hf, idle]

theorem step_of_reset {x : Option PortWord} (h : s.host = .reset x :: rest) :
    step s = hardReset (s.withHost rest) := by
  have hf : fetch s = .reset (s.withHost rest) := fetch_reset.2 ⟨x, rest, h, rfl⟩
  simp only [step, hf]

theorem step_of_command {i : Instr} (h : s.host = .command w :: rest) (hd : decode w = .ok i) :
    step s = exec i (s.withHost rest) := by
  have hf : fetch s = .command w (s.withHost rest) := fetch_command.2 ⟨rest, h, rfl⟩
  simp only [step, hf, hd]

theorem step_of_illegal {e : Illegal} (h : s.host = .command w :: rest) (hd : decode w = .error e) :
    step s = illegalCommand (s.withHost rest) := by
  have hf : fetch s = .command w (s.withHost rest) := fetch_command.2 ⟨rest, h, rfl⟩
  simp only [step, hf, hd]

end Sys2Proof.Machine
end

section
/-! PROOFS. Every step keeps the invariants (10_state.md R30): a rule per kind of update of the state, then each
command by what it can do. -/

namespace Sys2Proof.Machine

variable {s t : State}

/-! ### What the invariants say of widths and counters -/

/-- I2, on numbers. -/
theorem Invariants.width_legal (h : Invariants s) (hp : s.phase ≠ .idle) :
    s.width.toNat = 1 ∨ s.width.toNat = 2 ∨ s.width.toNat = 4 ∨ s.width.toNat = 8 := by
  rcases h.i2 hp with hw | hw | hw | hw <;> simp [hw]

theorem widthOf_legal {w : Word} (hw : LegalWidth w) :
    widthOf w = 1 ∨ widthOf w = 2 ∨ widthOf w = 4 ∨ widthOf w = 8 := by
  rcases hw with rfl | rfl | rfl | rfl <;> decide

theorem ne_zero_of_legal {w : BitVec 4} (hw : w = 1 ∨ w = 2 ∨ w = 4 ∨ w = 8) : w ≠ 0 := by
  rcases hw with rfl | rfl | rfl | rfl <;> decide

/-- A counter below `2^32 - 1` does not wrap (00_scope.md R12). -/
theorem toNat_succ {v : Word} (h : v.toNat + 1 < 2 ^ 32) : (v + 1).toNat = v.toNat + 1 :=
  BitVec.toNat_add_of_lt h

/-- A counter increased by one is at most one more, wrapped or not. -/
theorem toNat_succ_le (v : Word) : (v + 1).toNat ≤ v.toNat + 1 := by
  rw [BitVec.toNat_add]
  exact Nat.mod_le _ _

/-- What a decoder may expand to fits the packed space (00_scope.md R6). -/
theorem Invariants.maxExpanded_le (h : Invariants s) : s.cfg.maxExpanded ≤ s.cfg.pbufBytes := by
  obtain ⟨-, -, -, -, hmax⟩ := h.params
  exact hmax

/-! ### The invariants after an update -/

/-- The invariants do not speak of the response. -/
theorem Invariants.withRsp (h : Invariants s) (q : Option PortWord) : Invariants (s.withRsp q) :=
  { h with }

/-- The invariants do not speak of the number of draws. -/
theorem Invariants.withDraws (h : Invariants s) (n : Nat) : Invariants { s with draws := n } :=
  { h with }

/-- New contents of the compressed space and a new `CLEN`. -/
theorem Invariants.withCompressed (h : Invariants s) {m : Memory} {n : Word} (hform : m.wf = true)
    (hwithin : m.within s.cfg.cbufBytes = true) (hn : n.toNat ≤ s.cfg.cbufBytes) :
    Invariants ((s.withCbuf m).withClen n) :=
  { h with cbufForm := hform, cbufWithin := hwithin, i8 := ⟨h.i8.1, hn⟩ }

/-- No context, whatever the packed space holds. -/
theorem Invariants.withoutContext (h : Invariants s) {m : Memory} (hform : m.wf = true)
    (hwithin : m.within s.cfg.pbufBytes = true) : Invariants ((s.withPbuf m).withContext .idle 0 0 0) :=
  { h with
    pbufForm := hform
    pbufWithin := hwithin
    i1 := by simp
    i2 := by simp
    i3 := by simp
    i4 := by simp
    i5 := by simp [State.hasBuilder]
    i6 := by simp [State.hasBuilder]
    i7 := by simp
    i8 := ⟨Nat.zero_le _, h.i8.2⟩ }

/-- A decoder of a legal width. -/
theorem Invariants.withDecoder (h : Invariants s) {m : Memory} {w : BitVec 4} {n : Word} (hform : m.wf = true)
    (hwithin : m.within s.cfg.pbufBytes = true) (hw : w = 1 ∨ w = 2 ∨ w = 4 ∨ w = 8)
    (hn : n.toNat ≤ s.cfg.maxExpanded) : Invariants ((s.withPbuf m).withContext .dec w 0 n) :=
  { h with
    pbufForm := hform
    pbufWithin := hwithin
    i1 := by simpa using ne_zero_of_legal hw
    i2 := fun _ => hw
    i3 := by simp
    i4 := by simp
    i5 := by simp [State.hasBuilder]
    i6 := by simp [State.hasBuilder]
    i7 := fun _ => hn
    i8 := ⟨hn.trans h.maxExpanded_le, h.i8.2⟩ }

/-- A builder of a legal width, open or finalized, that holds `codes`. -/
theorem Invariants.withBuilder (h : Invariants s) {m : Memory} {p : Phase} {w : BitVec 4} {c n : Word}
    {codes : List Nat} (hp : p = .opened ∨ p = .built) (hform : m.wf = true)
    (hwithin : m.within s.cfg.pbufBytes = true) (hw : w = 1 ∨ w = 2 ∨ w = 4 ∨ w = 8)
    (hlen : n.toNat = packedLen c.toNat w.toNat) (hn : n.toNat ≤ s.cfg.pbufBytes)
    (hcodes : ((s.withPbuf m).withContext p w c n).holdsCodes codes) :
    Invariants ((s.withPbuf m).withContext p w c n) :=
  have hidle : p ≠ .idle := by rcases hp with rfl | rfl <;> decide
  have hdec : p ≠ .dec := by rcases hp with rfl | rfl <;> decide
  { h with
    pbufForm := hform
    pbufWithin := hwithin
    i1 := by simpa [hidle] using ne_zero_of_legal hw
    i2 := fun _ => hw
    i3 := by simp [hidle, hdec]
    i4 := by simp [hidle]
    i5 := fun _ => hlen
    i6 := fun _ => ⟨codes, hcodes⟩
    i7 := by simp [hdec]
    i8 := ⟨hn, h.i8.2⟩ }

theorem Invariants.resetRegisters (h : Invariants s) : Invariants s.resetRegisters :=
  (h.withoutContext h.pbufForm h.pbufWithin).withCompressed h.cbufForm h.cbufWithin (Nat.zero_le _)

/-! ### The commands that write a context or a buffer -/

theorem execBnew_keeps_invariants {w : Word} (h : Invariants s) (ht : execBnew w s = .next t) :
    Invariants t := by
  rcases execBnew_next.1 ht with ⟨hw, rfl⟩ | ⟨-, rfl⟩
  · have hempty : (s.withContext .opened (widthOf w) 0 0).holdsCodes [] := ⟨rfl, nofun, pack_nil _⟩
    exact (h.withBuilder (.inl rfl) h.pbufForm h.pbufWithin (widthOf_legal hw) (by simp [packedLen])
      (Nat.zero_le _) hempty).withRsp _
  · exact h.withRsp _

/-- The state after `BADD` on a byte boundary, but for the response: the code begins a byte (43_builder_commands.md
R171). -/
def State.beginByte (s : State) (c : Nat) : State :=
  ((s.withPbuf (s.pbuf.write (s.appendOffset / 8) (BitVec.ofNat 8 c))).withPlen (s.plen + 1)).withCount (s.count + 1)

/-- The state after `BADD` within a byte, but for the response: the code is or-ed into the last byte (R171). -/
def State.extendByte (s : State) (c : Nat) : State :=
  (s.withPbuf (s.pbuf.write (s.appendOffset / 8)
    (s.pbuf.read (s.appendOffset / 8) ||| BitVec.ofNat 8 (c <<< (s.appendOffset % 8))))).withCount (s.count + 1)

section Append

variable {c : Nat} {codes : List Nat}

theorem Invariants.packedLen_succ_of_boundary (h : Invariants s) (ho : s.phase = .opened)
    (hoff : s.appendOffset % 8 = 0) : s.plen.toNat = s.appendOffset / 8 ∧
      packedLen (s.count.toNat + 1) s.width.toNat = s.appendOffset / 8 + 1 := by
  obtain ⟨hlen, hsucc⟩ := Machine.packedLen_succ_of_boundary (h.width_legal (by simp [ho])) hoff
  exact ⟨(h.i5 (.inl ho)).trans hlen, hsucc⟩

theorem Invariants.packedLen_succ_of_within (h : Invariants s) (ho : s.phase = .opened)
    (hoff : s.appendOffset % 8 ≠ 0) : s.plen.toNat = s.appendOffset / 8 + 1 ∧
      packedLen (s.count.toNat + 1) s.width.toNat = s.appendOffset / 8 + 1 := by
  obtain ⟨hlen, hsucc⟩ := Machine.packedLen_succ_of_within (h.width_legal (by simp [ho])) hoff
  exact ⟨(h.i5 (.inl ho)).trans hlen, hsucc⟩

/-- `COUNT` does not wrap while the packed space has room (00_scope.md R12). -/
theorem Invariants.count_succ (h : Invariants s) (ho : s.phase = .opened)
    (hroom : s.appendOffset / 8 < s.cfg.pbufBytes) : (s.count + 1).toNat = s.count.toNat + 1 := by
  have hw := h.width_legal (by simp [ho])
  have hcount : s.count.toNat ≤ s.appendOffset := Nat.le_mul_of_pos_right _ (by omega)
  obtain ⟨-, hbits, -⟩ := h.params
  exact toNat_succ (by omega)

/-- `PLEN` does not wrap when a byte begins. -/
theorem Invariants.plen_succ (h : Invariants s) (ho : s.phase = .opened) (hoff : s.appendOffset % 8 = 0)
    (hroom : s.appendOffset / 8 < s.cfg.pbufBytes) : (s.plen + 1).toNat = s.appendOffset / 8 + 1 := by
  obtain ⟨hplen, -⟩ := h.packedLen_succ_of_boundary ho hoff
  obtain ⟨-, hbits, -⟩ := h.params
  rw [toNat_succ (by omega), hplen]

/-- The packing of one more code is the packed buffer with a new byte that holds that code. -/
theorem holdsCodes_beginByte (h : Invariants s) (ho : s.phase = .opened) (hcodes : s.holdsCodes codes)
    (hc : c < 2 ^ s.width.toNat) (hoff : s.appendOffset % 8 = 0)
    (hroom : s.appendOffset / 8 < s.cfg.pbufBytes) : (s.beginByte c).holdsCodes (codes ++ [c]) := by
  obtain ⟨hcount, hsmall, hpack⟩ := hcodes
  obtain ⟨hplen, -⟩ := h.packedLen_succ_of_boundary ho hoff
  have hpacked : (s.beginByte c).packed = s.packed ++ [BitVec.ofNat 8 c] := by
    have hend := Memory.readRange_write_end h.pbufForm (s.appendOffset / 8) (BitVec.ofNat 8 c)
    rw [← h.plen_succ ho hoff hroom, ← hplen] at hend
    simpa [State.packed, State.beginByte, hplen] using hend
  refine ⟨?_, ?_, ?_⟩
  · rw [List.length_append, hcount]
    exact (h.count_succ ho hroom).symm
  · exact List.forall_mem_append.2 ⟨hsmall, List.forall_mem_singleton.2 hc⟩
  · rw [hpacked]
    exact pack_concat_of_boundary (h.width_legal (by simp [ho])) hpack hc (by rwa [hcount])

/-- The packing of one more code is the packed buffer with that code or-ed into its last byte. -/
theorem holdsCodes_extendByte (h : Invariants s) (ho : s.phase = .opened) (hcodes : s.holdsCodes codes)
    (hc : c < 2 ^ s.width.toNat) (hoff : s.appendOffset % 8 ≠ 0)
    (hroom : s.appendOffset / 8 < s.cfg.pbufBytes) : (s.extendByte c).holdsCodes (codes ++ [c]) := by
  obtain ⟨hcount, hsmall, hpack⟩ := hcodes
  have hpacked : (s.extendByte c).packed = s.packed.modify (s.appendOffset / 8)
      (· ||| BitVec.ofNat 8 (c <<< (s.appendOffset % 8))) :=
    Memory.readRange_write_modify h.pbufForm _ _ (· ||| BitVec.ofNat 8 (c <<< (s.appendOffset % 8)))
  refine ⟨?_, ?_, ?_⟩
  · rw [List.length_append, hcount]
    exact (h.count_succ ho hroom).symm
  · exact List.forall_mem_append.2 ⟨hsmall, List.forall_mem_singleton.2 hc⟩
  · have happend := pack_concat_of_within (h.width_legal (by simp [ho])) hpack hc (by rwa [hcount])
    rw [hcount] at happend
    exact happend.trans (congrArg _ hpacked.symm)

theorem Invariants.beginByte (h : Invariants s) (ho : s.phase = .opened) (hc : c < 2 ^ s.width.toNat)
    (hoff : s.appendOffset % 8 = 0) (hroom : s.appendOffset / 8 < s.cfg.pbufBytes) :
    Invariants (s.beginByte c) := by
  obtain ⟨codes, hcodes⟩ := h.i6 (.inl ho)
  obtain ⟨-, hsucc⟩ := h.packedLen_succ_of_boundary ho hoff
  have hplen := h.plen_succ ho hoff hroom
  have hlen : (s.plen + 1).toNat = packedLen (s.count + 1).toNat s.width.toNat := by
    rw [hplen, h.count_succ ho hroom, hsucc]
  exact h.withBuilder (p := s.phase) (.inl ho) (Memory.wf_write h.pbufForm _ _)
    (Memory.within_write h.pbufWithin hroom _) (h.i2 (by simp [ho])) hlen (hplen.trans_le hroom)
    (holdsCodes_beginByte h ho hcodes hc hoff hroom)

theorem Invariants.extendByte (h : Invariants s) (ho : s.phase = .opened) (hc : c < 2 ^ s.width.toNat)
    (hoff : s.appendOffset % 8 ≠ 0) (hroom : s.appendOffset / 8 < s.cfg.pbufBytes) :
    Invariants (s.extendByte c) := by
  obtain ⟨codes, hcodes⟩ := h.i6 (.inl ho)
  obtain ⟨hplen, hsucc⟩ := h.packedLen_succ_of_within ho hoff
  have hlen : s.plen.toNat = packedLen (s.count + 1).toNat s.width.toNat := by
    rw [h.count_succ ho hroom, hplen, hsucc]
  exact h.withBuilder (p := s.phase) (.inl ho) (Memory.wf_write h.pbufForm _ _)
    (Memory.within_write h.pbufWithin hroom _) (h.i2 (by simp [ho])) hlen h.i8.1
    (holdsCodes_extendByte h ho hcodes hc hoff hroom)

end Append

theorem execBadd_keeps_invariants {c : Word} (h : Invariants s) (ht : execBadd c s = .next t) :
    Invariants t := by
  obtain ⟨-, rfl⟩ | ⟨-, rfl⟩ | ⟨-, -, rfl⟩ | ⟨-, -, -, -, rfl⟩ | ⟨ho, hc, hoff, hroom, rfl⟩ |
    ⟨ho, hc, hoff, hroom, rfl⟩ := execBadd_next ht
  case inr.inr.inr.inr.inl => exact (h.beginByte ho hc hoff hroom).withRsp _
  case inr.inr.inr.inr.inr => exact (h.extendByte ho hc hoff hroom).withRsp _
  all_goals exact h.withRsp _

theorem execBfin_keeps_invariants (h : Invariants s) (ht : execBfin s = .next t) : Invariants t := by
  obtain ⟨-, rfl⟩ | ⟨-, rfl⟩ | ⟨-, -, -, rfl⟩ | ⟨ho, -, hfits, rfl⟩ := execBfin_next ht
  case inr.inr.inr =>
    have hstored := h.withCompressed (Memory.wf_writeRange h.cbufForm 0 (compress s.cfg s.packed))
      (Memory.within_writeRange h.cbufWithin 0 _ (by rwa [Nat.zero_add]))
      (n := BitVec.ofNat 32 (compress s.cfg s.packed).length) ((Nat.mod_le _ _).trans hfits)
    obtain ⟨codes, hcodes⟩ := h.i6 (.inl ho)
    exact (hstored.withBuilder (.inr rfl) h.pbufForm h.pbufWithin (h.i2 (by simp [ho])) (h.i5 (.inl ho))
      h.i8.1 hcodes).withRsp _
  all_goals exact h.withRsp _

theorem execDnew_keeps_invariants {w : Word} (h : Invariants s) (ht : execDnew w s = .next t) :
    Invariants t := by
  obtain ⟨-, rfl⟩ | ⟨e, -, -, -, rfl⟩ | ⟨out, hw, -, hout, hfits, rfl⟩ := execDnew_next ht
  · exact h.withRsp _
  · exact ((h.withoutContext (Memory.wf_unspecified _ _) (Memory.within_unspecified _ _)).withDraws _).withRsp _
  · have hmax : (BitVec.ofNat 32 out.length).toNat ≤ s.cfg.maxExpanded :=
      (Nat.mod_le _ _).trans (inflate_length_le hout)
    exact (h.withDecoder (Memory.wf_writeRange h.pbufForm 0 out)
      (Memory.within_writeRange h.pbufWithin 0 out (by rwa [Nat.zero_add])) (widthOf_legal hw) hmax).withRsp _

theorem execCput_keeps_invariants {b : Byte} (h : Invariants s) (ht : execCput b s = .next t) :
    Invariants t := by
  obtain ⟨-, rfl⟩ | ⟨hroom, rfl⟩ := execCput_next ht
  · exact h.withRsp _
  · have hclen : (s.clen + 1).toNat ≤ s.cfg.cbufBytes := by
      obtain ⟨-, -, -, hbytes, -⟩ := h.params
      rw [toNat_succ (by omega)]
      exact hroom
    exact (h.withCompressed (Memory.wf_write h.cbufForm _ b) (Memory.within_write h.cbufWithin hroom b)
      hclen).withRsp _

/-! ### The commands that only read -/

/-- The eight commands that only read (20_memory.md R50). -/
def readsOnly : Instr → Bool
  | .stat | .bcnt | .get _ | .len | .clen | .cget _ | .plen | .pget _ => true
  | _ => false

/-- A reading command changes nothing but the response. -/
theorem exec_next_of_readsOnly {i : Instr} (hi : readsOnly i = true) (ht : exec i s = .next t) :
    ∃ q, t = s.withRsp q := by
  cases i with
  | stat | clen | plen => exact ⟨_, respond_eq_next.1 ht⟩
  | bcnt => rcases execBcnt_next.1 ht with ⟨-, rfl⟩ | ⟨-, rfl⟩ <;> exact ⟨_, rfl⟩
  | len => rcases execLen_next.1 ht with ⟨-, rfl⟩ | ⟨-, rfl⟩ <;> exact ⟨_, rfl⟩
  | get i => rcases execGet_next ht with ⟨-, rfl⟩ | ⟨-, -, rfl⟩ | ⟨-, -, -, rfl⟩ <;> exact ⟨_, rfl⟩
  | cget a => rcases execCget_next ht with ⟨-, rfl⟩ | ⟨-, -, rfl⟩ <;> exact ⟨_, rfl⟩
  | pget a => rcases execPget_next ht with ⟨-, rfl⟩ | ⟨-, -, rfl⟩ <;> exact ⟨_, rfl⟩
  | rst | bnew | badd | bfin | dnew | cclr | cput => exact absurd hi nofun

/-! ### Every command, every step -/

theorem exec_keeps_invariants {i : Instr} (h : Invariants s) (ht : exec i s = .next t) : Invariants t := by
  cases i with
  | rst => exact respond_next.1 ht ▸ h.resetRegisters.withRsp _
  | cclr => exact respond_next.1 ht ▸ (h.withCompressed h.cbufForm h.cbufWithin (Nat.zero_le _)).withRsp _
  | bnew w => exact execBnew_keeps_invariants h ht
  | badd c => exact execBadd_keeps_invariants h ht
  | bfin => exact execBfin_keeps_invariants h ht
  | dnew w => exact execDnew_keeps_invariants h ht
  | cput b => exact execCput_keeps_invariants h ht
  | stat | bcnt | get | len | clen | cget | plen | pget =>
    obtain ⟨q, rfl⟩ := exec_next_of_readsOnly rfl ht
    exact h.withRsp q

/-- The reset input leaves free bytes, which are in canonical form and exist. -/
theorem hardReset_keeps_invariants (h : Invariants s) (ht : hardReset s = .next t) : Invariants t := by
  cases ht
  have hcleared := (h.withoutContext (Memory.wf_unspecified s.cfg.pbufBytes s.draws)
    (Memory.within_unspecified _ _)).withCompressed (n := 0) (Memory.wf_unspecified s.cfg.cbufBytes (s.draws + 1))
    (Memory.within_unspecified _ _) (Nat.zero_le _)
  exact (hcleared.withDraws (s.draws + 2)).withRsp none

theorem step_keeps_invariants (h : Invariants s) (ht : step s = .next t) : Invariants t := by
  match hh : s.host with
  | [] =>
    rw [step_of_no_input hh] at ht
    cases ht
    exact h
  | .reset x :: rest =>
    rw [step_of_reset hh] at ht
    exact hardReset_keeps_invariants (h.withHost rest) ht
  | .command w :: rest =>
    match hd : decode w with
    | .ok i =>
      rw [step_of_command hh hd] at ht
      exact exec_keeps_invariants (h.withHost rest) ht
    | .error e =>
      rw [step_of_illegal hh hd] at ht
      exact raise_next.1 ht ▸ (h.withHost rest).withRsp _

/-- Settles O14: each command by what it can do; `BADD` keeps I5 and I6 because `Pack` of one more code is the
packed buffer with the byte it writes. -/
theorem stepKeepsTheInvariants : Obligations.StepKeepsTheInvariants := fun _ _ => step_keeps_invariants

/-- Settles O13: a context does not exist at reset, and the lengths are 0. -/
theorem invariantsHoldAtReset : Obligations.InvariantsHoldAtReset where
  params := by decide
  pbufForm := Memory.wf_reset.1
  cbufForm := Memory.wf_reset.2
  pbufWithin := rfl
  cbufWithin := rfl
  i1 := by decide
  i2 := by decide
  i3 := by decide
  i4 := by decide
  i5 := fun hb => absurd hb (by simp [State.hasBuilder, State.reset])
  i6 := fun hb => absurd hb (by simp [State.hasBuilder, State.reset])
  i7 := by decide
  i8 := by decide

end Sys2Proof.Machine
end

section
/-! PROOFS. Bytes at or above the lengths are unobservable (10_state.md R26, R27). Two states that look the same take
the same branches, read the same bytes and write the same bytes, so they look the same afterwards: a rule per shared
operation, then each command along its own definition. -/

namespace Sys2Proof.Machine

variable {s t : State}

/-! ### Memories that agree below a length -/

/-- The two memories hold the same bytes below `n`. -/
def Memory.AgreeBelow (n : Nat) (m m' : Memory) : Prop := ∀ a, a < n → m'.read a = m.read a

section Agree

variable {m m' : Memory}

/-- Nothing is below a length of 0. -/
theorem Memory.agreeBelow_zero : AgreeBelow (0 : Word).toNat m m' := fun _ ha => absurd ha (Nat.not_lt_zero _)

/-- After one byte is written to both, they agree on it too. -/
theorem Memory.AgreeBelow.write {n n' : Nat} (hm : m.wf = true) (hm' : m'.wf = true) (h : AgreeBelow n m m')
    (k : Nat) (b : Byte) (hn : ∀ a, a < n' → a ≠ k → a < n) : AgreeBelow n' (m.write k b) (m'.write k b) := by
  intro a ha
  rw [Memory.read_write hm, Memory.read_write hm']
  by_cases hk : a = k
  · rw [if_pos hk, if_pos hk]
  · rw [if_neg hk, if_neg hk]
    exact h a (hn a ha hk)

/-- After a byte sequence is written to both from address 0, they agree on it. -/
theorem Memory.AgreeBelow.writeRange {n : Nat} {d : List Byte} (hm : m.wf = true) (hm' : m'.wf = true)
    (hn : n ≤ d.length) : AgreeBelow n (m.writeRange 0 d) (m'.writeRange 0 d) := by
  intro a ha
  rw [Memory.read_writeRange hm, Memory.read_writeRange hm', dif_pos (by omega), dif_pos (by omega)]

end Agree

/-! ### What two states that look the same read -/

section Reads

variable (h : SameVisible s t)
include h

theorem SameVisible.readPacked {a : Nat} (ha : a < s.plen.toNat) : t.readPacked a = s.readPacked a := by
  simp only [State.readPacked, h.cfg, h.pbuf a ha]

theorem SameVisible.readCompressed {a : Nat} (ha : a < s.clen.toNat) :
    t.readCompressed a = s.readCompressed a := by
  simp only [State.readCompressed, h.cfg, h.cbuf a ha]

theorem SameVisible.packedBytes : t.packedBytes s.plen.toNat = s.packedBytes s.plen.toNat := by
  simp only [State.packedBytes, h.cfg, Memory.readRange_congr h.pbuf]

theorem SameVisible.compressedBytes : t.compressedBytes s.clen.toNat = s.compressedBytes s.clen.toNat := by
  simp only [State.compressedBytes, h.cfg, Memory.readRange_congr h.cbuf]

theorem SameVisible.appendOffset : t.appendOffset = s.appendOffset := by
  rw [State.appendOffset, State.appendOffset, h.count, h.width]

/-! ### Updates of two states that look the same -/

theorem SameVisible.withRsp (q : Option PortWord) : SameVisible (s.withRsp q) (t.withRsp q) :=
  { h with rsp := rfl }

theorem SameVisible.withHost (i : List HostInput) : SameVisible (s.withHost i) (t.withHost i) :=
  { h with host := rfl }

theorem SameVisible.withPhase (p : Phase) : SameVisible (s.withPhase p) (t.withPhase p) :=
  { h with phase := rfl }

theorem SameVisible.withCount {n n' : Word} (hn : n' = n) : SameVisible (s.withCount n) (t.withCount n') :=
  { h with count := hn }

theorem SameVisible.withPbuf {m m' : Memory} (hm : Memory.AgreeBelow s.plen.toNat m m') :
    SameVisible (s.withPbuf m) (t.withPbuf m') :=
  { h with pbuf := hm }

/-- New contents of the packed space and a new `PLEN`: only the bytes below it count. -/
theorem SameVisible.withPacked {m m' : Memory} {n n' : Word} (hn : n' = n)
    (hm : Memory.AgreeBelow n.toNat m m') :
    SameVisible ((s.withPbuf m).withPlen n) ((t.withPbuf m').withPlen n') :=
  { h with plen := hn, pbuf := hm }

/-- New contents of the compressed space and a new `CLEN`: only the bytes below it count. -/
theorem SameVisible.withCompressed {m m' : Memory} {n n' : Word} (hn : n' = n)
    (hm : Memory.AgreeBelow n.toNat m m') :
    SameVisible ((s.withCbuf m).withClen n) ((t.withCbuf m').withClen n') :=
  { h with clen := hn, cbuf := hm }

/-- A new context over new contents of the packed space. -/
theorem SameVisible.withContext {m m' : Memory} {n : Word} (p : Phase) (w : BitVec 4) (c : Word)
    (hm : Memory.AgreeBelow n.toNat m m') :
    SameVisible ((s.withPbuf m).withContext p w c n) ((t.withPbuf m').withContext p w c n) :=
  { h with phase := rfl, width := rfl, count := rfl, plen := rfl, pbuf := hm }

/-- No context: the bytes of the packed space and the numbers of draws may differ (log 6). -/
theorem SameVisible.losePacked_withContext : SameVisible (s.losePacked.withContext .idle 0 0 0)
    (t.losePacked.withContext .idle 0 0 0) :=
  { h with phase := rfl, width := rfl, count := rfl, plen := rfl, pbuf := Memory.agreeBelow_zero }

theorem SameVisible.resetRegisters : SameVisible s.resetRegisters t.resetRegisters :=
  { h with
    phase := rfl, width := rfl, count := rfl, plen := rfl, clen := rfl
    pbuf := Memory.agreeBelow_zero, cbuf := Memory.agreeBelow_zero }

/-- After the reset input the bytes of both buffers may differ (log 6). -/
theorem SameVisible.resetRegisters_lose : SameVisible s.resetRegisters.losePacked.loseCompressed
    t.resetRegisters.losePacked.loseCompressed :=
  { h.resetRegisters with pbuf := Memory.agreeBelow_zero, cbuf := Memory.agreeBelow_zero }

end Reads

/-! ### Results that look the same -/

/-- Where the first ends in a next state, the second ends in one that looks the same. -/
def Follows (r r' : Result) : Prop := ∀ u, r = .next u → ∃ v, r' = .next v ∧ SameVisible u v

theorem Follows.next (h : SameVisible s t) : Follows (.next s) (.next t) := fun _ hu =>
  ⟨t, rfl, Host.Outcome.next.inj hu ▸ h⟩

theorem Follows.respond (h : SameVisible s t) (st : Status) (r : Word) :
    Follows (respond st r s) (respond st r t) := .next (h.withRsp _)

theorem Follows.raise (h : SameVisible s t) (e : Status) : Follows (raise e s) (raise e t) :=
  .respond h e 0

theorem Follows.ite {c : Prop} [Decidable c] {x y x' y' : Result} (hx : c → Follows x x')
    (hy : ¬ c → Follows y y') : Follows (if c then x else y) (if c then x' else y') := by
  split
  · exact hx ‹_›
  · exact hy ‹_›

/-- One access that answers the same to both. -/
theorem Follows.read {α : Type} {r : Except Fault α} {k k' : α → Result} (hk : ∀ a, Follows (k a) (k' a)) :
    Follows (attempt r k) (attempt r k') := by
  cases r with
  | ok a => exact hk a
  | error f => exact nofun

/-- A write that exists for both or for neither. -/
theorem Follows.write {c : Prop} [Decidable c] {u v : State} {f : Fault} {k k' : State → Result}
    (hk : Follows (k u) (k' v)) :
    Follows (attempt (if c then .ok u else .error f) k) (attempt (if c then .ok v else .error f) k') := by
  split
  · exact hk
  · exact nofun

section Writes

variable {k k' : State → Result} (h : SameVisible s t)
include h

theorem Follows.writePacked {a : Nat} {b : Byte}
    (hk : Follows (k (s.withPbuf (s.pbuf.write a b))) (k' (t.withPbuf (t.pbuf.write a b)))) :
    Follows (attempt (s.writePacked a b) k) (attempt (t.writePacked a b) k') := by
  rw [State.writePacked, State.writePacked, h.cfg]
  exact .write hk

theorem Follows.storePacked {d : List Byte}
    (hk : Follows (k (s.withPbuf (s.pbuf.writeRange 0 d))) (k' (t.withPbuf (t.pbuf.writeRange 0 d)))) :
    Follows (attempt (s.storePacked d) k) (attempt (t.storePacked d) k') := by
  rw [State.storePacked, State.storePacked, h.cfg]
  exact .write hk

theorem Follows.writeCompressed {a : Nat} {b : Byte}
    (hk : Follows (k (s.withCbuf (s.cbuf.write a b))) (k' (t.withCbuf (t.cbuf.write a b)))) :
    Follows (attempt (s.writeCompressed a b) k) (attempt (t.writeCompressed a b) k') := by
  rw [State.writeCompressed, State.writeCompressed, h.cfg]
  exact .write hk

theorem Follows.storeCompressed {d : List Byte}
    (hk : Follows (k (s.withCbuf (s.cbuf.writeRange 0 d))) (k' (t.withCbuf (t.cbuf.writeRange 0 d)))) :
    Follows (attempt (s.storeCompressed d) k) (attempt (t.storeCompressed d) k') := by
  rw [State.storeCompressed, State.storeCompressed, h.cfg]
  exact .write hk

end Writes

/-! ### Every command, every step -/

section Commands

variable (hs : Invariants s) (ht : Invariants t) (h : SameVisible s t)
include h

theorem execBnew_follows (w : Word) : Follows (execBnew w s) (execBnew w t) :=
  .ite (fun _ => .respond (h.withContext _ _ _ Memory.agreeBelow_zero) _ _) fun _ => .raise h _

include hs ht in
theorem execBadd_follows (c : Word) : Follows (execBadd c s) (execBadd c t) := by
  simp only [execBadd, h.phase, h.width, h.cfg, h.appendOffset]
  refine .ite (fun _ => .raise h _) fun hi => .ite (fun _ => .raise h _) fun hb =>
    .ite (fun _ => .raise h _) fun _ => .ite (fun hoff => .ite (fun _ => .raise h _) fun _ => ?begin)
      fun hoff => ?extend
  case begin =>
    have ho := Phase.opened_of hi hb
    obtain ⟨hplen, -⟩ := hs.packedLen_succ_of_boundary ho hoff
    refine .writePacked h (.respond ((h.withPacked (congrArg (· + 1) h.plen) ?_).withCount
      (congrArg (· + 1) h.count)) _ _)
    refine .write hs.pbufForm ht.pbufForm h.pbuf _ _ fun a ha hne => ?_
    have hlt : (s.plen + 1).toNat ≤ s.plen.toNat + 1 := toNat_succ_le s.plen
    have ha : a < (s.plen + 1).toNat := ha
    omega
  case extend =>
    obtain ⟨hplen, -⟩ := hs.packedLen_succ_of_within (Phase.opened_of hi hb) hoff
    rw [h.readPacked (by omega)]
    refine .read fun b => .writePacked h (.respond ((h.withPbuf ?_).withCount (congrArg (· + 1) h.count)) _ _)
    exact .write hs.pbufForm ht.pbufForm h.pbuf _ _ fun a ha _ => ha

include hs ht in
theorem execBfin_follows : Follows (execBfin s) (execBfin t) := by
  simp only [execBfin, h.phase, h.plen, h.cfg, h.packedBytes]
  refine .ite (fun _ => .raise h _) fun _ => .ite (fun _ => .raise h _) fun _ => .read fun d =>
    .ite (fun _ => .raise h _) fun _ => ?_
  refine .storeCompressed h (.respond ((h.withCompressed rfl ?_).withPhase _) _ _)
  exact .writeRange hs.cbufForm ht.cbufForm (Nat.mod_le _ _)

include hs ht in
theorem execDnew_follows (w : Word) : Follows (execDnew w s) (execDnew w t) := by
  simp only [execDnew, h.clen, h.cfg, h.compressedBytes]
  refine .ite (fun _ => .read fun d => ?_) fun _ => .raise h _
  split
  · exact .raise h.losePacked_withContext _
  · refine .storePacked h (.respond (h.withContext _ _ _ ?_) _ _)
    exact .writeRange hs.pbufForm ht.pbufForm (Nat.mod_le _ _)

theorem execBcnt_follows : Follows (execBcnt s) (execBcnt t) := by
  simp only [execBcnt, h.phase, h.count]
  exact .ite (fun _ => .raise h _) fun _ => .respond h _ _

theorem execGet_follows (i : Word) : Follows (execGet i s) (execGet i t) := by
  simp only [execGet, h.phase, h.plen, h.width]
  refine .ite (fun _ => .raise h _) fun _ => .ite (fun _ => .raise h _) fun hi => ?_
  rw [h.readPacked (lane_byte_lt_of_lt_cap (Nat.lt_of_not_le hi))]
  exact .read fun b => .respond h _ _

theorem execLen_follows : Follows (execLen s) (execLen t) := by
  simp only [execLen, h.phase, h.plen, h.width]
  exact .ite (fun _ => .raise h _) fun _ => .respond h _ _

include hs ht in
theorem execCput_follows (b : Byte) : Follows (execCput b s) (execCput b t) := by
  simp only [execCput, h.clen, h.cfg]
  refine .ite (fun _ => .raise h _) fun _ => .writeCompressed h (.respond (h.withCompressed
    (congrArg (· + 1) h.clen) ?_) _ _)
  refine .write hs.cbufForm ht.cbufForm h.cbuf _ _ fun a ha hne => ?_
  have hlt : (s.clen + 1).toNat ≤ s.clen.toNat + 1 := toNat_succ_le s.clen
  have ha : a < (s.clen + 1).toNat := ha
  omega

theorem execCget_follows (a : Word) : Follows (execCget a s) (execCget a t) := by
  simp only [execCget, h.clen]
  refine .ite (fun _ => .raise h _) fun ha => ?_
  rw [h.readCompressed (Nat.lt_of_not_le ha)]
  exact .read fun b => .respond h _ _

theorem execPget_follows (a : Word) : Follows (execPget a s) (execPget a t) := by
  simp only [execPget, h.plen]
  refine .ite (fun _ => .raise h _) fun ha => ?_
  rw [h.readPacked (Nat.lt_of_not_le ha)]
  exact .read fun b => .respond h _ _

theorem hardReset_follows : Follows (hardReset s) (hardReset t) :=
  .next (h.resetRegisters_lose.withRsp none)

include hs ht in
theorem exec_follows (i : Instr) : Follows (exec i s) (exec i t) := by
  cases i with
  | rst => exact .respond h.resetRegisters _ _
  | stat =>
    simp only [exec, execStat, h.phase, h.width]
    exact .respond h _ _
  | cclr => exact .respond (h.withCompressed rfl Memory.agreeBelow_zero) _ _
  | clen =>
    simp only [exec, execClen, h.clen]
    exact .respond h _ _
  | plen =>
    simp only [exec, execPlen, h.plen]
    exact .respond h _ _
  | bnew w => exact execBnew_follows h w
  | badd c => exact execBadd_follows hs ht h c
  | bfin => exact execBfin_follows hs ht h
  | bcnt => exact execBcnt_follows h
  | dnew w => exact execDnew_follows hs ht h w
  | get i => exact execGet_follows h i
  | len => exact execLen_follows h
  | cput b => exact execCput_follows hs ht h b
  | cget a => exact execCget_follows h a
  | pget a => exact execPget_follows h a

include hs ht in
theorem step_follows : Follows (step s) (step t) := by
  match hh : s.host with
  | [] =>
    rw [step_of_no_input hh, step_of_no_input (h.host.trans hh)]
    exact .next h
  | .reset x :: rest =>
    rw [step_of_reset hh, step_of_reset (h.host.trans hh)]
    exact hardReset_follows (h.withHost rest)
  | .command w :: rest =>
    match hd : decode w with
    | .ok i =>
      rw [step_of_command hh hd, step_of_command (h.host.trans hh) hd]
      exact exec_follows (hs.withHost rest) (ht.withHost rest) (h.withHost rest) i
    | .error e =>
      rw [step_of_illegal hh hd, step_of_illegal (h.host.trans hh) hd]
      exact .raise (h.withHost rest) _

end Commands

/-- Settles O16: the first state does not stop (`step_proceeds`), and the second follows it. -/
theorem bytesAboveTheLengthsAreHidden : Obligations.BytesAboveTheLengthsAreHidden := by
  intro s t hs ht h
  obtain ⟨s', hs'⟩ := step_proceeds hs
  obtain ⟨t', ht', h'⟩ := step_follows hs ht h s' hs'
  exact ⟨s', t', hs', ht', h'⟩

/-- Settles O12: with both lengths 0 no byte of a buffer is below its length. -/
theorem resetLeavesAnIdleBlock : Obligations.ResetLeavesAnIdleBlock :=
  ⟨rfl, rfl, rfl, rfl, rfl, fun _ _ =>
    ⟨rfl, rfl, rfl, rfl, rfl, rfl, rfl, rfl, Memory.agreeBelow_zero, Memory.agreeBelow_zero⟩⟩

end Sys2Proof.Machine
end

section
/-! PROOFS. Which command may write what, and the transitions of `PHASE` (10_state.md R29, R34), from what each
command can do. -/

namespace Sys2Proof.Machine

/-- Settles O19: in every case of what a writing command can do, the fields it leaves are those of `s`. -/
theorem onlyTheListedCommandsWrite : Obligations.OnlyTheListedCommandsWrite := by
  intro i s t h
  cases i with
  | rst => cases respond_next.1 h; simp
  | cclr => cases respond_next.1 h; simp
  | bnew w => rcases execBnew_next.1 h with ⟨-, rfl⟩ | ⟨-, rfl⟩ <;> simp
  | badd c =>
    obtain ⟨-, rfl⟩ | ⟨-, rfl⟩ | ⟨-, -, rfl⟩ | ⟨-, -, -, -, rfl⟩ | ⟨-, -, -, -, rfl⟩ | ⟨-, -, -, -, rfl⟩ :=
      execBadd_next h <;> simp
  | bfin =>
    obtain ⟨-, rfl⟩ | ⟨-, rfl⟩ | ⟨-, -, -, rfl⟩ | ⟨-, -, -, rfl⟩ := execBfin_next h <;> simp
  | dnew w =>
    obtain ⟨-, rfl⟩ | ⟨e, -, -, -, rfl⟩ | ⟨out, -, -, -, -, rfl⟩ := execDnew_next h <;> simp
  | cput b => obtain ⟨-, rfl⟩ | ⟨-, rfl⟩ := execCput_next h <;> simp
  | stat | bcnt | get | len | clen | cget | plen | pget =>
    obtain ⟨q, rfl⟩ := exec_next_of_readsOnly rfl h
    simp

/-- Settles O21: each cell of the table of R29 is a case of what its command can do. -/
theorem phaseTransitions : Obligations.PhaseTransitions := by
  intro i s t h
  cases i with
  | rst => cases respond_next.1 h; rfl
  | cclr => cases respond_next.1 h; rfl
  | bnew w =>
    dsimp only
    rcases execBnew_next.1 h with ⟨hw, rfl⟩ | ⟨hw, rfl⟩
    · rw [if_pos hw]; rfl
    · rw [if_neg hw]; exact ⟨rfl, rfl⟩
  | badd c =>
    obtain ⟨hp, rfl⟩ | ⟨hp, rfl⟩ | ⟨hp, -, rfl⟩ | ⟨hp, -, -, -, rfl⟩ | ⟨hp, -, -, -, rfl⟩ | ⟨hp, -, -, -, rfl⟩ :=
      execBadd_next h
    case inl => rcases hp with hp | hp <;> simp [hp]
    all_goals simp [hp]
  | bfin =>
    obtain ⟨hp, rfl⟩ | ⟨hp, rfl⟩ | ⟨hp, -, -, rfl⟩ | ⟨hp, -, -, rfl⟩ := execBfin_next h
    case inl => rcases hp with hp | hp <;> simp [hp]
    all_goals simp [hp]
  | dnew w =>
    dsimp only
    obtain ⟨hw, rfl⟩ | ⟨e, hw, -, he, rfl⟩ | ⟨out, hw, -, hout, -, rfl⟩ := execDnew_next h
    · rw [if_neg hw]; exact ⟨rfl, rfl⟩
    · rw [if_pos hw, he]; exact ⟨rfl, rfl⟩
    · rw [if_pos hw, hout]; rfl
  | cput b => obtain ⟨-, rfl⟩ | ⟨-, rfl⟩ := execCput_next h <;> rfl
  | stat | bcnt | get | len | clen | cget | plen | pget =>
    obtain ⟨q, rfl⟩ := exec_next_of_readsOnly rfl h
    rfl

end Sys2Proof.Machine
end

section
/-! PROOFS. The port and the two buffer memories (20_memory.md): what a step runs (R52), that reading has no side
effect (R50), and the bytes the four storing commands leave alone (R41, R42). -/

namespace Sys2Proof.Machine

variable {s t : State}

/-- Settles O5: the equation of a step for a word that decodes. -/
theorem stepRunsTheDecodedCommand : Obligations.StepRunsTheDecodedCommand :=
  fun _ _ _ _ hhost hdecode => step_of_command hhost hdecode

/-! ### Reading twice -/

/-- A reading command does not depend on the response at the port, which is not stored in the block
(10_state.md R33). -/
theorem exec_withRsp_of_readsOnly {i : Instr} (hi : readsOnly i = true) (s : State) (q : Option PortWord) :
    exec i (s.withRsp q) = exec i s := by
  cases i with
  | stat | bcnt | get | len | clen | cget | plen | pget => rfl
  | rst | bnew | badd | bfin | dnew | cclr | cput => exact absurd hi nofun

/-- Settles O18: a reading command changes the response alone, on which its second answer does not depend. -/
theorem readingHasNoSideEffect : Obligations.ReadingHasNoSideEffect := by
  intro i s t h hreads
  have hi : readsOnly i = true := by
    rcases hreads with ⟨a, rfl⟩ | ⟨a, rfl⟩ | ⟨a, rfl⟩ | rfl | rfl | rfl | rfl | rfl <;> rfl
  obtain ⟨q, rfl⟩ := exec_next_of_readsOnly hi h
  exact ⟨rfl, (exec_withRsp_of_readsOnly hi s q).trans h⟩

/-! ### The bytes a store leaves alone -/

section Frame

variable {m : Memory}

theorem Memory.read_write_of_ne (hm : m.wf = true) {a x : Nat} (b : Byte) (hx : x ≠ a) :
    (m.write a b).read x = m.read x := by
  rw [Memory.read_write hm, if_neg hx]

theorem Memory.read_writeRange_of_le (hm : m.wf = true) {d : List Byte} {x : Nat} (hx : d.length ≤ x) :
    (m.writeRange 0 d).read x = m.read x := by
  rw [Memory.read_writeRange hm, dif_neg (by omega)]

/-- Of both buffers `BADD` writes at most the byte the next code goes into. -/
theorem execBadd_frame {c : Word} (hm : s.pbuf.wf = true) (h : execBadd c s = .next t) :
    t.cbuf = s.cbuf ∧ ∀ a, a ≠ s.appendOffset / 8 → t.pbuf.read a = s.pbuf.read a := by
  obtain ⟨-, rfl⟩ | ⟨-, rfl⟩ | ⟨-, -, rfl⟩ | ⟨-, -, -, -, rfl⟩ | ⟨-, -, -, -, rfl⟩ | ⟨-, -, -, -, rfl⟩ :=
    execBadd_next h
  iterate 4 exact ⟨rfl, fun _ _ => rfl⟩
  iterate 2 exact ⟨rfl, fun _ ha => Memory.read_write_of_ne hm _ ha⟩

/-- Of both buffers `BFIN` writes at most the compressed space below the length of its output. -/
theorem execBfin_frame (hm : s.cbuf.wf = true) (h : execBfin s = .next t) :
    t.pbuf = s.pbuf ∧ ∀ a, (compress s.cfg s.packed).length ≤ a → t.cbuf.read a = s.cbuf.read a := by
  obtain ⟨-, rfl⟩ | ⟨-, rfl⟩ | ⟨-, -, -, rfl⟩ | ⟨-, -, -, rfl⟩ := execBfin_next h
  iterate 3 exact ⟨rfl, fun _ _ => rfl⟩
  exact ⟨rfl, fun _ ha => Memory.read_writeRange_of_le hm ha⟩

/-- Of both buffers `CPUT` writes at most the byte at `CLEN`. -/
theorem execCput_frame {b : Byte} (hm : s.cbuf.wf = true) (h : execCput b s = .next t) :
    t.pbuf = s.pbuf ∧ ∀ a, a ≠ s.clen.toNat → t.cbuf.read a = s.cbuf.read a := by
  obtain ⟨-, rfl⟩ | ⟨-, rfl⟩ := execCput_next h
  · exact ⟨rfl, fun _ _ => rfl⟩
  · exact ⟨rfl, fun _ ha => Memory.read_write_of_ne hm _ ha⟩

/-- Of both buffers a `DNEW` whose stream is accepted writes at most the packed space below the length of its
output. -/
theorem execDnew_frame {w : Word} {out : List Byte} (hm : s.pbuf.wf = true) (h : execDnew w s = .next t)
    (hout : inflate s.compressed s.cfg.maxExpanded = .ok out) :
    t.cbuf = s.cbuf ∧ ∀ a, out.length ≤ a → t.pbuf.read a = s.pbuf.read a := by
  obtain ⟨-, rfl⟩ | ⟨e, -, -, herror, rfl⟩ | ⟨out', -, -, hout', -, rfl⟩ := execDnew_next h
  · exact ⟨rfl, fun _ _ => rfl⟩
  · cases herror.symm.trans hout
  · cases hout'.symm.trans hout
    exact ⟨rfl, fun _ ha => Memory.read_writeRange_of_le hm ha⟩

end Frame

/-- Settles O20: each storing command fails and writes no byte, or writes the bytes its rule names. -/
theorem storingCommandsFrame : Obligations.StoringCommandsFrame :=
  fun _ _ hpbuf hcbuf => ⟨fun _ => execBadd_frame hpbuf, execBfin_frame hcbuf, fun _ => execCput_frame hcbuf,
    fun _ _ => execDnew_frame hpbuf⟩

end Sys2Proof.Machine
end

section
/-! PROOFS. Encoding (30_encoding.md R60 to R73): the operands a format admits, the opcode map by rows, and what
`Decode` accepts. A word decodes to a command exactly when it is the command's encoding. -/

namespace Sys2Proof

variable {w : PortWord} {i : Instr} {r : OpcodeRow} {f : Format} {o : BitVec 8} {a : Word}

/-! ### The operands of a format -/

theorem Format.admits_n : Format.n.admits a = true ↔ a = 0 := beq_iff_eq

/-- `ARG` is a byte exactly when `ARG[31:8]` is 0 (R64). -/
theorem Format.admits_b : Format.b.admits a = true ↔ a.extractLsb' 8 24 = 0 := by
  have hbyte : Format.b.admits a = true ↔ a.toNat < 256 := decide_eq_true_iff
  have hhigh : (a.extractLsb' 8 24).toNat = a.toNat / 256 := by
    rw [BitVec.extractLsb'_toNat, Nat.shiftRight_eq_div_pow, Nat.mod_eq_of_lt (by omega)]
  rw [hbyte, ← BitVec.toNat_inj, hhigh]
  exact Nat.div_eq_zero_iff_lt (by decide) |>.symm

/-- What a command of a format keeps of `ARG`: nothing (R62), all of it (R63), its low byte (R64). -/
def Format.keep : Format → Word → Word
  | .n, _ => 0
  | .v, a => a
  | .b, a => (a.extractLsb' 0 8).setWidth 32

/-- Nothing of an operand that the format admits is lost. -/
theorem Format.keep_of_admits (h : f.admits a = true) : f.keep a = a := by
  cases f with
  | n => exact (Format.admits_n.1 h).symm
  | v => rfl
  | b =>
    have hlt : a.toNat < 256 := decide_eq_true_iff.1 h
    apply BitVec.eq_of_toNat_eq
    rw [Format.keep, BitVec.toNat_setWidth, BitVec.extractLsb'_toNat, Nat.shiftRight_zero]
    omega

/-! ### The opcode map -/

/-- An opcode has the one row of the map that lists it. -/
theorem rowOf_eq_some : rowOf o = some r ↔ r ∈ opcodeMap ∧ r.opc = o := by
  have hsound : ∀ x, rowOf o = some x → x ∈ opcodeMap ∧ x.opc = o := fun x hx =>
    ⟨List.mem_of_find?_eq_some hx, beq_iff_eq.1 (List.find?_some (p := fun x : OpcodeRow => x.opc == o) hx)⟩
  refine ⟨hsound r, fun ⟨hr, ho⟩ => ?_⟩
  have hfound : (rowOf o).isSome = true := List.find?_isSome.2 ⟨r, hr, beq_iff_eq.2 ho⟩
  obtain ⟨x, hx⟩ := Option.isSome_iff_exists.1 hfound
  obtain ⟨hmem, hopc⟩ := hsound x hx
  rw [hx, List.inj_on_of_nodup_map opcodeMap_distinct hmem hr (hopc.trans ho.symm)]

/-- The row of a command's opcode makes the command from its operand. -/
theorem rowOf_opcode (i : Instr) :
    ∃ r, rowOf (opcode i) = some r ∧ r.format = formatOf i ∧ r.command (operand i) = i := by
  cases i with
  | cput b =>
    have hb : (b.setWidth 32).extractLsb' 0 8 = b := by
      rw [BitVec.extractLsb'_setWidth_of_le (by decide), BitVec.extractLsb'_eq_self]
    exact ⟨_, rfl, rfl, congrArg Instr.cput hb⟩
  | _ => exact ⟨_, rfl, rfl, rfl⟩

/-- The command a row makes has the row's opcode, and as operand what its format keeps. -/
theorem opcode_operand_command (hr : r ∈ opcodeMap) (a : Word) :
    opcode (r.command a) = r.opc ∧ operand (r.command a) = r.format.keep a := by
  fin_cases hr <;> exact ⟨rfl, rfl⟩

/-- The word of a command is well formed in the command's format. -/
theorem wellFormed_encode (i : Instr) : (fields (encode i)).wellFormed (formatOf i) = true := by
  cases i with
  | cput b => exact (Laws.LegalWord.cput b).1
  | _ => rw [fields_encode]; rfl

/-! ### What `Decode` accepts -/

theorem Fields.wellFormed_iff {x : Fields} :
    x.wellFormed f = true ↔ x.rsv = 0 ∧ f.admits x.arg = true := by
  rw [Fields.wellFormed, Bool.and_eq_true, beq_iff_eq]

/-- The checks of `Decode` after the opcode (R73) are those of a well-formed word. -/
theorem Fields.wellFormed_iff_checks {x : Fields} : x.wellFormed f = true ↔
    ¬ x.rsv ≠ 0 ∧ ¬ (f = .n ∧ x.arg ≠ 0) ∧ ¬ (f = .b ∧ x.arg.extractLsb' 8 24 ≠ 0) := by
  rw [Fields.wellFormed_iff, ne_eq, not_not]
  cases f with
  | n => simp [Format.admits_n]
  | v => simp [Format.admits]
  | b => simp [Format.admits_b]

/-- `Decode` accepts the well-formed words of the rows of the map. -/
theorem decode_eq_ok_iff_row : decode w = .ok i ↔ ∃ r, rowOf (fields w).opc = some r ∧
    (fields w).wellFormed r.format = true ∧ r.command (fields w).arg = i := by
  cases hrow : rowOf (fields w).opc with
  | none => simp [decode, hrow]
  | some r =>
    simp only [decode, hrow, Option.some.injEq, exists_eq_left', Fields.wellFormed_iff_checks]
    split_ifs with hrsv hn hb
    · exact ⟨nofun, fun ⟨⟨h, _, _⟩, _⟩ => absurd hrsv h⟩
    · exact ⟨nofun, fun ⟨⟨_, h, _⟩, _⟩ => absurd hn h⟩
    · exact ⟨nofun, fun ⟨⟨_, _, h⟩, _⟩ => absurd hb h⟩
    · exact ⟨fun h => ⟨⟨hrsv, hn, hb⟩, Except.ok.inj h⟩, fun ⟨_, h⟩ => congrArg Except.ok h⟩

theorem decode_encode (i : Instr) : decode (encode i) = .ok i := by
  obtain ⟨r, hrow, hformat, hcommand⟩ := rowOf_opcode i
  have hwf := wellFormed_encode i
  rw [decode_eq_ok_iff_row]
  rw [fields_encode] at hwf ⊢
  exact ⟨r, hrow, hformat ▸ hwf, hcommand⟩

theorem encode_of_decode (h : decode w = .ok i) : encode i = w := by
  obtain ⟨r, hrow, hwf, rfl⟩ := decode_eq_ok_iff_row.1 h
  obtain ⟨hmem, hopc⟩ := rowOf_eq_some.1 hrow
  obtain ⟨hrsv, hadmits⟩ := Fields.wellFormed_iff.1 hwf
  obtain ⟨hopcode, hoperand⟩ := opcode_operand_command hmem (fields w).arg
  calc encode (r.command (fields w).arg)
      = ((fields w).opc ++ (fields w).rsv) ++ (fields w).arg := by
        rw [encode, hopcode, hoperand, Format.keep_of_admits hadmits, hopc, hrsv]
    _ = w := append_fields w

/-! ### The words of the map as R67 writes them -/

/-- A word whose first half is an opcode and 24 zero bits, as the map writes it, decodes (R67). -/
theorem decode_append (i : Instr) (o : BitVec 8) {k : BitVec 32} (ho : opcode i = o)
    (hk : o ++ (0 : BitVec 24) = k) : decode (k ++ operand i) = .ok i := by
  rw [← hk, ← ho]
  exact decode_encode i

/-- A byte after 56 bits is the operand of format B after the first 32 of them. -/
theorem append_setWidth_byte (k : BitVec 32) (b : Byte) : k ++ b.setWidth 32 = (k ++ (0 : BitVec 24)) ++ b := by
  have hb : b.setWidth 32 = (0 : BitVec 24) ++ b := BitVec.setWidth_eq_append (by decide)
  rw [hb]
  exact BitVec.append_assoc'.trans (BitVec.cast_eq ..)

/-! ### The legal words -/

/-- The opcodes of the map that have a format. -/
def opcodesOf (f : Format) : List (BitVec 8) := (opcodeMap.filter (·.format == f)).map OpcodeRow.opc

theorem mem_opcodesOf : o ∈ opcodesOf f ↔ ∃ r, rowOf o = some r ∧ r.format = f := by
  simp only [opcodesOf, List.mem_map, List.mem_filter, beq_iff_eq, rowOf_eq_some, and_right_comm]

/-- A word is legal exactly when `RSV` is 0 and its opcode has a format that admits `ARG`. -/
theorem exists_decode_iff : (∃ i, decode w = .ok i) ↔
    (fields w).rsv = 0 ∧ ∃ f, (fields w).opc ∈ opcodesOf f ∧ f.admits (fields w).arg = true := by
  simp only [decode_eq_ok_iff_row, mem_opcodesOf, Fields.wellFormed_iff]
  constructor
  · rintro ⟨_, r, hrow, ⟨hrsv, hadmits⟩, -⟩
    exact ⟨hrsv, r.format, ⟨r, hrow, rfl⟩, hadmits⟩
  · rintro ⟨hrsv, _, ⟨r, hrow, rfl⟩, hadmits⟩
    exact ⟨_, r, hrow, ⟨hrsv, hadmits⟩, rfl⟩

theorem Format.exists_iff {p : Format → Prop} : (∃ f, p f) ↔ p .n ∨ p .v ∨ p .b := by
  constructor
  · rintro ⟨f, hf⟩
    cases f with
    | n => exact .inl hf
    | v => exact .inr (.inl hf)
    | b => exact .inr (.inr hf)
  · rintro (hf | hf | hf) <;> exact ⟨_, hf⟩

end Sys2Proof

namespace Sys2Proof.Machine

/-- The three disjuncts of `LegalForm` are the three formats of the map. -/
theorem legalForm_iff {w : PortWord} : LegalForm w ↔
    (fields w).rsv = 0 ∧ ∃ f, (fields w).opc ∈ opcodesOf f ∧ f.admits (fields w).arg = true := by
  have hhigh : (fields w).arg.extractLsb' 8 24 = w.extractLsb' 8 24 :=
    BitVec.extractLsb'_extractLsb'_of_le (by decide)
  rw [Format.exists_iff, Format.admits_n, Format.admits_b, hhigh]
  exact and_congr Iff.rfl (or_congr Iff.rfl
    (or_congr (and_iff_left rfl).symm (and_congr List.mem_singleton.symm Iff.rfl)))

/-- Settles O2: the row of the command's opcode accepts its word, whose fields are the command's, and makes the
command again. -/
theorem decodeOfEncodeIsTheCommand : Obligations.DecodeOfEncodeIsTheCommand := decode_encode

/-- Settles O3: a word that decodes has the fields of its command, so it is the command's encoding. -/
theorem encodeOfDecodeIsTheWord : Obligations.EncodeOfDecodeIsTheWord :=
  ⟨fun _ _ => encode_of_decode, fun _ _ _ hv hw => (encode_of_decode hv).symm.trans (encode_of_decode hw)⟩

/-- Settles O4: both sides say that `RSV` is 0 and that the opcode has a format of the map that admits `ARG`. -/
theorem legalWordsAreThoseOfTheFormats : Obligations.LegalWordsAreThoseOfTheFormats :=
  fun _ => exists_decode_iff.trans legalForm_iff.symm

/-- Settles O1: each word of the map is the encoding of its command, and each illegal word fails the check named. -/
theorem opcodeMapWordsDecode : Obligations.OpcodeMapWordsDecode :=
  ⟨rfl, rfl, fun v => decode_append (.bnew v) 0x10 rfl rfl, fun v => decode_append (.badd v) 0x11 rfl rfl,
    rfl, rfl, fun v => decode_append (.dnew v) 0x20 rfl rfl, fun v => decode_append (.get v) 0x21 rfl rfl,
    rfl, rfl, fun b => append_setWidth_byte 0x31000000 b ▸ decode_append (.cput b) 0x31 rfl rfl,
    rfl, fun v => decode_append (.cget v) 0x33 rfl rfl, rfl, fun v => decode_append (.pget v) 0x41 rfl rfl,
    rfl, rfl, rfl, rfl, rfl⟩

end Sys2Proof.Machine
end

section
/-! PROOFS. The response of every command word (30_encoding.md R61): which status and result a command answers with,
from what each command can do. -/

namespace Sys2Proof.Machine

variable {s t : State} {i : Instr} {w : PortWord} {rest : List HostInput}

/-- The commands that answer a value when they complete: all but `RST`, `BNEW`, `BADD`, `CCLR` and `CPUT`. -/
def returnsValue : Instr → Bool
  | .rst | .bnew _ | .badd _ | .cclr | .cput _ => false
  | _ => true

/-- A command leaves the host's further inputs alone. -/
theorem exec_host (h : exec i s = .next t) : t.host = s.host := by
  obtain ⟨-, -, -, -, -, -, -, -, hhost⟩ := onlyTheListedCommandsWrite i s t h
  exact hhost

/-- A response that carries a result other than 0 at most when `valued`, and never with an error (R61). -/
def Responds (t : State) (valued : Bool) : Prop :=
  ∃ st r, t.rsp = some (responseWord st r) ∧ (r = 0 ∨ st = .ok ∧ valued = true)

theorem responds_failed (s : State) (e : Status) (v : Bool) : Responds (s.failed e) v :=
  ⟨e, 0, rfl, .inl rfl⟩

theorem responds_done_zero (s : State) (v : Bool) : Responds (s.done 0) v := ⟨.ok, 0, rfl, .inl rfl⟩

theorem responds_done (s : State) (r : Word) : Responds (s.done r) true :=
  ⟨.ok, r, rfl, .inr ⟨rfl, rfl⟩⟩

theorem exec_responds (h : exec i s = .next t) : Responds t (returnsValue i) := by
  cases i with
  | rst | cclr => exact respond_next.1 h ▸ responds_done_zero _ _
  | stat | clen | plen => exact respond_next.1 h ▸ responds_done _ _
  | bnew w =>
    obtain ⟨-, rfl⟩ | ⟨-, rfl⟩ := execBnew_next.1 h
    exacts [responds_done_zero _ _, responds_failed _ _ _]
  | badd c =>
    obtain ⟨-, rfl⟩ | ⟨-, rfl⟩ | ⟨-, -, rfl⟩ | ⟨-, -, -, -, rfl⟩ | ⟨-, -, -, -, rfl⟩ | ⟨-, -, -, -, rfl⟩ :=
      execBadd_next h
    iterate 4 exact responds_failed _ _ _
    iterate 2 exact responds_done_zero _ _
  | bfin =>
    obtain ⟨-, rfl⟩ | ⟨-, rfl⟩ | ⟨-, -, -, rfl⟩ | ⟨-, -, -, rfl⟩ := execBfin_next h
    iterate 3 exact responds_failed _ _ _
    exact responds_done _ _
  | bcnt =>
    obtain ⟨-, rfl⟩ | ⟨-, rfl⟩ := execBcnt_next.1 h
    exacts [responds_failed _ _ _, responds_done _ _]
  | dnew w =>
    obtain ⟨-, rfl⟩ | ⟨e, -, -, -, rfl⟩ | ⟨out, -, -, -, -, rfl⟩ := execDnew_next h
    exacts [responds_failed _ _ _, responds_failed _ _ _, responds_done _ _]
  | get i =>
    obtain ⟨-, rfl⟩ | ⟨-, -, rfl⟩ | ⟨-, -, -, rfl⟩ := execGet_next h
    exacts [responds_failed _ _ _, responds_failed _ _ _, responds_done _ _]
  | len =>
    obtain ⟨-, rfl⟩ | ⟨-, rfl⟩ := execLen_next.1 h
    exacts [responds_failed _ _ _, responds_done _ _]
  | cput b =>
    obtain ⟨-, rfl⟩ | ⟨-, rfl⟩ := execCput_next h
    exacts [responds_failed _ _ _, responds_done_zero _ _]
  | cget a =>
    obtain ⟨-, rfl⟩ | ⟨-, -, rfl⟩ := execCget_next h
    exacts [responds_failed _ _ _, responds_done _ _]
  | pget a =>
    obtain ⟨-, rfl⟩ | ⟨-, -, rfl⟩ := execPget_next h
    exacts [responds_failed _ _ _, responds_done _ _]

/-- Every word presented to a block that meets the invariants is taken and answered, an illegal one and one of a
command without a value with result 0. -/
theorem step_responds (h : Invariants s) (hhost : s.host = .command w :: rest) :
    ∃ t v, step s = .next t ∧ t.host = rest ∧ Responds t v ∧ ∀ i, decode w = .ok i → v = returnsValue i := by
  match hd : decode w with
  | .ok i =>
    obtain ⟨t, ht⟩ := exec_proceeds (h.withHost rest) i
    exact ⟨t, returnsValue i, (step_of_command hhost hd).trans ht, exec_host ht, exec_responds ht,
      fun _ hi => congrArg returnsValue (Except.ok.inj hi)⟩
  | .error e =>
    exact ⟨_, false, step_of_illegal hhost hd, rfl, responds_failed _ .illegalCommand _, nofun⟩

/-- The layout of a response (R61). -/
theorem Responds.layout {v : Bool} (h : Responds t v) : ∃ q, t.rsp = some q ∧ q.extractLsb' 32 24 = 0 ∧
    (responseStatus q ≠ 0 → responseResult q = 0) ∧ (v = false → responseResult q = 0) := by
  obtain ⟨st, r, hrsp, hr⟩ := h
  refine ⟨_, hrsp, responseWord_gap st r, ?_⟩
  rw [responseStatus_responseWord, responseResult_responseWord]
  rcases hr with rfl | ⟨rfl, rfl⟩
  · exact ⟨fun _ => rfl, fun _ => rfl⟩
  · exact ⟨fun herror => absurd rfl herror, nofun⟩

/-- Settles O9: under the invariants every word is answered, and each answer is an error with result 0 or a
completion whose result is 0 unless the command returns a value. -/
theorem everyWordGetsOneResponse : Obligations.EveryWordGetsOneResponse := by
  intro s w rest h hhost
  obtain ⟨t, v, hstep, hrest, hresponds, hv⟩ := step_responds h hhost
  obtain ⟨q, hrsp, hgap, herror, hzero⟩ := hresponds.layout
  refine ⟨t, q, hstep, hrest, hrsp, hgap, herror, fun i hi hcases => hzero ?_⟩
  rw [hv i hi]
  rcases hcases with rfl | rfl | ⟨_, rfl⟩ | ⟨_, rfl⟩ | ⟨_, rfl⟩ <;> rfl

end Sys2Proof.Machine
end

section
/-! PROOFS. The lanes of packed bytes (40_bitpacker.md R82, R86, R87): each code has a lane of its own inside one byte,
so a byte sequence is the same as the sequence of its lanes. -/

namespace Sys2Proof.Machine

variable {w : Nat} {codes : List Nat} {b : List Byte}

/-! ### The lane of one byte -/

/-- A lane is the `w` bits of the byte from its shift on. -/
theorem getLsbD_lane (x : Byte) (s w t : Nat) :
    (lane x s w).getLsbD t = (decide (t < w) && x.getLsbD (s + t)) := by
  simp only [lane, BitVec.getLsbD_and, BitVec.getLsbD_ushiftRight, BitVec.getLsbD_ofNat, Nat.testBit_two_pow_sub_one]
  by_cases ht : t < 8
  · simp [ht, Bool.and_comm]
  · simp [ht, BitVec.getLsbD_of_ge x (s + t) (by omega)]

@[simp] theorem lane_zero (s w : Nat) : lane 0 s w = 0 := by
  simp [lane]

/-- A lane, as a number. -/
theorem toNat_lane (x : Byte) (s w : Nat) : (lane x s w).toNat = x.toNat / 2 ^ s % 2 ^ w := by
  apply Nat.eq_of_testBit_eq
  intro t
  simpa [BitVec.getLsbD, Nat.testBit_div_two_pow, Nat.add_comm] using getLsbD_lane x s w t

theorem toNat_lane_lt (x : Byte) (s w : Nat) : (lane x s w).toNat < 2 ^ w :=
  toNat_lane x s w ▸ Nat.mod_lt _ (Nat.two_pow_pos w)

/-- A code or-ed in at a shift is or-ed into the lane at that shift. -/
theorem lane_or_same {s c : Nat} (x : Byte) (hs : s + w ≤ 8) (hc : c < 2 ^ w) :
    lane (x ||| BitVec.ofNat 8 (c <<< s)) s w = lane x s w ||| BitVec.ofNat 8 c := by
  apply BitVec.eq_of_getLsbD_eq
  intro t ht
  simp only [getLsbD_lane, BitVec.getLsbD_or, BitVec.getLsbD_ofNat, Nat.testBit_shiftLeft]
  by_cases htw : t < w
  · simp [htw, ht, show s + t < 8 by omega]
  · simp [htw, Nat.testBit_lt_two_pow (hc.trans_le (Nat.pow_le_pow_right Nat.two_pos (Nat.le_of_not_lt htw)))]

/-- A code or-ed in at a shift leaves the lanes apart from it as they were. -/
theorem lane_or_apart {s r c : Nat} (x : Byte) (hc : c < 2 ^ w) (hapart : s + w ≤ r ∨ r + w ≤ s) :
    lane (x ||| BitVec.ofNat 8 (c <<< s)) r w = lane x r w := by
  apply BitVec.eq_of_getLsbD_eq
  intro t _
  simp only [getLsbD_lane, BitVec.getLsbD_or, BitVec.getLsbD_ofNat, Nat.testBit_shiftLeft]
  by_cases htw : t < w
  · rcases hapart with h | h
    · have hbit : c.testBit (r + t - s) = false :=
        Nat.testBit_lt_two_pow (hc.trans_le (Nat.pow_le_pow_right Nat.two_pos (by omega)))
      simp [hbit]
    · simp [show ¬ s ≤ r + t by omega]
  · simp [htw]

/-! ### The place of a code -/

/-- A code lies within its byte (R87). -/
theorem code_within_byte (hw : w = 1 ∨ w = 2 ∨ w = 4 ∨ w = 8) (i : Nat) :
    i * w % 8 % w = 0 ∧ i * w % 8 + w ≤ 8 := by
  rcases hw with rfl | rfl | rfl | rfl <;> omega

/-- Two codes in one byte lie apart. -/
theorem codes_apart {i n : Nat} (hw : w = 1 ∨ w = 2 ∨ w = 4 ∨ w = 8) (hne : i ≠ n)
    (hbyte : i * w / 8 = n * w / 8) : n * w % 8 + w ≤ i * w % 8 ∨ i * w % 8 + w ≤ n * w % 8 := by
  rcases hw with rfl | rfl | rfl | rfl <;> omega

/-- The capacity (R85) counts the indices whose byte exists. -/
theorem cap_le_iff {m i : Nat} (hw : w = 1 ∨ w = 2 ∨ w = 4 ∨ w = 8) : cap m w ≤ i ↔ m ≤ i * w / 8 := by
  unfold cap
  rcases hw with rfl | rfl | rfl | rfl <;> omega

theorem packedLen_cap (hw : w = 1 ∨ w = 2 ∨ w = 4 ∨ w = 8) (m : Nat) : packedLen (cap m w) w = m := by
  unfold packedLen cap
  rcases hw with rfl | rfl | rfl | rfl <;> omega

/-- Bit `t` of byte `k` is bit `t mod w` of the code number `8k/w + t/w`. -/
theorem place_of_bit {t : Nat} (hw : w = 1 ∨ w = 2 ∨ w = 4 ∨ w = 8) (k : Nat) (ht : t < 8) :
    (8 * k / w + t / w) * w / 8 = k ∧ (8 * k / w + t / w) * w % 8 + t % w = t := by
  rcases hw with rfl | rfl | rfl | rfl <;> omega

/-! ### The lanes of a byte sequence -/

/-- Lane number `i` of a byte sequence, 0 beyond its end: what `UnpackOne` answers below the capacity (R86). -/
def laneAt (b : List Byte) (w i : Nat) : Byte := lane (b.getD (i * w / 8) 0) (i * w % 8) w

theorem unpackOne_of_lt {i : Nat} (hw : w = 1 ∨ w = 2 ∨ w = 4 ∨ w = 8) (hi : i < cap b.length w) :
    unpackOne b w i = .ok (laneAt b w i) := by
  have hbyte : i * w / 8 < b.length := Nat.lt_of_not_le fun h => Nat.not_le_of_lt hi ((cap_le_iff hw).2 h)
  simp [unpackOne, laneAt, Nat.not_le_of_lt hi, hbyte]

theorem unpackOne_of_ge {i : Nat} (hi : cap b.length w ≤ i) : unpackOne b w i = .error .indexOutOfBounds :=
  if_pos hi

@[simp] theorem laneAt_replicate_zero (n w i : Nat) : laneAt (List.replicate n 0) w i = 0 := by
  rw [laneAt, List.getD_eq_getElem?_getD, List.getElem?_getD_replicate_default_eq, lane_zero]

/-- Lanes determine the bytes. -/
theorem eq_of_laneAt_eq {d : List Byte} (hw : w = 1 ∨ w = 2 ∨ w = 4 ∨ w = 8) (hlen : b.length = d.length)
    (h : ∀ i < cap d.length w, laneAt b w i = laneAt d w i) : b = d := by
  apply List.ext_getElem hlen
  intro k hkb hkd
  apply BitVec.eq_of_getLsbD_eq
  intro t ht
  obtain ⟨hbyte, hshift⟩ := place_of_bit hw k ht
  have hi : 8 * k / w + t / w < cap d.length w :=
    Nat.lt_of_not_le fun hle => Nat.not_le_of_lt hkd (hbyte ▸ (cap_le_iff hw).1 hle)
  have hbit := congrArg (·.getLsbD (t % w)) (h _ hi)
  simpa [laneAt, getLsbD_lane, hbyte, hshift, hkb, hkd, Nat.mod_lt t (show 0 < w by omega)] using hbit

/-- A code or-ed into its byte at its shift is or-ed into its own lane, and no other lane changes. -/
theorem laneAt_modify {n c : Nat} (hw : w = 1 ∨ w = 2 ∨ w = 4 ∨ w = 8) (hn : n * w / 8 < b.length)
    (hc : c < 2 ^ w) (i : Nat) :
    laneAt (b.modify (n * w / 8) (· ||| BitVec.ofNat 8 (c <<< (n * w % 8)))) w i =
      if i = n then laneAt b w i ||| BitVec.ofNat 8 c else laneAt b w i := by
  unfold laneAt
  by_cases hbyte : i * w / 8 = n * w / 8
  · have hget (f : Byte → Byte) : (b.modify (n * w / 8) f).getD (n * w / 8) 0 = f (b.getD (n * w / 8) 0) := by
      simp [hn]
    rw [hbyte, hget]
    split
    · next heq => rw [heq, lane_or_same _ (code_within_byte hw n).2 hc]
    · next hne => exact lane_or_apart _ hc (codes_apart hw hne hbyte)
  · have hne : i ≠ n := fun h => hbyte (h ▸ rfl)
    simp [hne, List.getD_eq_getElem?_getD, Ne.symm hbyte]

/-- The loop of `Pack` or-s each code into its own lane. -/
theorem laneAt_packFrom {out : List Byte} (hw : w = 1 ∨ w = 2 ∨ w = 4 ∨ w = 8)
    (hcodes : ∀ c ∈ codes, c < 2 ^ w) (hout : ∀ k < codes.length, k * w / 8 < out.length) (i : Nat) :
    laneAt (packFrom w 0 codes out) w i = laneAt out w i ||| BitVec.ofNat 8 (codes.getD i 0) := by
  induction codes using List.reverseRecOn with
  | nil => simp [packFrom]
  | append_singleton cs c ih =>
    simp only [List.mem_append, List.mem_singleton, or_imp, forall_and, forall_eq] at hcodes
    simp only [List.length_append, List.length_singleton] at hout
    have hlast : cs.length * w / 8 < (packFrom w 0 cs out).length := by
      rw [length_packFrom]
      exact hout _ (Nat.lt_succ_self _)
    rw [packFrom_concat, Nat.zero_add, laneAt_modify hw hlast hcodes.2,
      ih hcodes.1 fun k hk => hout k (Nat.lt_succ_of_lt hk)]
    rcases Nat.lt_trichotomy i cs.length with hi | rfl | hi
    · simp [hi.ne, hi, List.getElem?_append_left]
    · simp
    · simp [hi.ne', hi.le, List.getElem?_append_right, show i - cs.length ≠ 0 by omega]

/-! ### The lanes of a packing -/

/-- Each code of a packing is alone in its lane, and every other lane holds 0. -/
theorem laneAt_of_pack (hw : w = 1 ∨ w = 2 ∨ w = 4 ∨ w = 8) (h : pack codes w = .ok b) (i : Nat) :
    laneAt b w i = BitVec.ofNat 8 (codes.getD i 0) := by
  obtain ⟨hcodes, rfl⟩ := pack_ok.1 h
  rw [laneAt_packFrom hw hcodes fun k hk => by simpa using code_byte_lt_packedLen (by omega) hk,
    laneAt_replicate_zero]
  exact BitVec.zero_or

/-- A code of a packing fits a byte, so its lane is the code. -/
theorem toNat_laneAt_of_pack (hw : w = 1 ∨ w = 2 ∨ w = 4 ∨ w = 8) (h : pack codes w = .ok b) {i : Nat}
    (hi : i < codes.length) : (laneAt b w i).toNat = codes[i] := by
  have hcode : codes[i] < 2 ^ w := (pack_ok.1 h).1 _ (List.getElem_mem hi)
  have hbyte : 2 ^ w ≤ 2 ^ 8 := Nat.pow_le_pow_right Nat.two_pos (by omega)
  rw [laneAt_of_pack hw h, List.getD_eq_getElem _ _ hi, BitVec.toNat_ofNat, Nat.mod_eq_of_lt (hcode.trans_le hbyte)]

/-- The capacity of a packing covers its codes. -/
theorem length_le_cap_of_pack (hw : w = 1 ∨ w = 2 ∨ w = 4 ∨ w = 8) (h : pack codes w = .ok b) :
    codes.length ≤ cap b.length w := by
  rw [length_of_pack h]
  refine Nat.le_of_not_lt fun hlt => ?_
  exact Nat.not_le_of_lt (code_byte_lt_packedLen (by omega) hlt) ((cap_le_iff hw).1 le_rfl)

/-- The lanes of a byte sequence below its capacity, as codes. -/
def lanes (d : List Byte) (w : Nat) : List Nat := (List.range (cap d.length w)).map fun i => (laneAt d w i).toNat

@[simp] theorem length_lanes (d : List Byte) (w : Nat) : (lanes d w).length = cap d.length w := by
  simp [lanes]

theorem getElem_lanes {d : List Byte} {i : Nat} (hi : i < (lanes d w).length) :
    (lanes d w)[i] = (laneAt d w i).toNat := by
  simp [lanes]

/-- Every byte sequence is the packing of its own lanes (R88, L6). -/
theorem pack_lanes (hw : w = 1 ∨ w = 2 ∨ w = 4 ∨ w = 8) (d : List Byte) : pack (lanes d w) w = .ok d := by
  have hcodes : ∀ c ∈ lanes d w, c < 2 ^ w := by
    simp only [lanes, List.mem_map]
    rintro _ ⟨i, -, rfl⟩
    exact toNat_lane_lt _ _ _
  obtain ⟨b, hb⟩ : ∃ b, pack (lanes d w) w = .ok b := ⟨_, pack_ok.2 ⟨hcodes, rfl⟩⟩
  have hlen : b.length = d.length := by rw [length_of_pack hb, length_lanes, packedLen_cap hw]
  suffices b = d from this ▸ hb
  refine eq_of_laneAt_eq hw hlen fun i hi => BitVec.eq_of_toNat_eq ?_
  rw [toNat_laneAt_of_pack hw hb (by rwa [length_lanes]), getElem_lanes]

/-! ### The statements -/

/-- Settles O43: the length is that of the loop's zero bytes, and the lane of each code is the code. -/
theorem unpackOfPackIsTheCode : Obligations.UnpackOfPackIsTheCode := by
  intro w codes b hw h
  refine ⟨length_of_pack h, fun i hi => ⟨laneAt b w i, ?_, toNat_laneAt_of_pack hw h hi⟩⟩
  exact unpackOne_of_lt hw (hi.trans_le (length_le_cap_of_pack hw h))

/-- Settles O44: no code reaches a lane after the last one, and `UnpackOne` compares the index with the capacity. -/
theorem paddingIsZeroUpToTheCapacity : Obligations.PaddingIsZeroUpToTheCapacity := by
  intro w codes b hw h
  refine ⟨fun i hlen hi => ?_, fun i hi => unpackOne_of_ge hi⟩
  rw [unpackOne_of_lt hw hi, laneAt_of_pack hw h, List.getD_eq_default _ _ hlen]
  rfl

/-- Settles O45: on a byte boundary the code is a byte of its own, within a byte it is or-ed into the last one. -/
theorem packOfAppend : Obligations.PackOfAppend := by
  intro w codes b c hw h hc
  refine ⟨pack_concat_of_boundary hw h hc, fun hn => ?_⟩
  have hlen : b.length = codes.length * w / 8 + 1 := (length_of_pack h).trans (packedLen_succ_of_within hw hn).1
  obtain ⟨d, last, rfl⟩ := List.eq_nil_or_concat' b |>.resolve_left (List.ne_nil_of_length_eq_add_one hlen)
  have hd : codes.length * w / 8 = d.length := by simpa using hlen.symm
  refine ⟨d, last, rfl, ?_⟩
  rw [pack_concat_of_within hw h hc hn, hd, Nat.shiftLeft_eq]
  simp [List.modify_eq_set]

/-- Settles O46: a byte sequence is the packing of its lanes, and the codes of a packing are read off its lanes. -/
theorem packIsOntoAndInjective : Obligations.PackIsOntoAndInjective := by
  refine fun w hw => ⟨fun d => ⟨lanes d w, length_lanes d w, pack_lanes hw d, fun i hi => ?_⟩, ?_⟩
  · exact ⟨laneAt d w i, unpackOne_of_lt hw (length_lanes d w ▸ hi), (getElem_lanes hi).symm⟩
  · intro xs ys d hlen hx hy
    refine List.ext_getElem hlen fun i hix hiy => ?_
    rw [← toNat_laneAt_of_pack hw hx hix, ← toNat_laneAt_of_pack hw hy hiy]

/-- Settles O48: the widths divide 8, so a lane ends within its byte and the bits of the next byte are cut off. -/
theorem codesNeverStraddleBytes : Obligations.CodesNeverStraddleBytes := by
  intro w i hw
  obtain ⟨hmod, hle⟩ := code_within_byte hw i
  refine ⟨hmod, hle, fun x y => ?_⟩
  have hnext : 256 * y.toNat = 2 ^ (i * w % 8) * (2 ^ w * (2 ^ (8 - (i * w % 8 + w)) * y.toNat)) := by
    rw [← Nat.mul_assoc, ← Nat.mul_assoc, ← Nat.pow_add, ← Nat.pow_add, Nat.add_sub_cancel' hle]
  rw [toNat_lane, hnext, Nat.add_mul_div_left _ _ (Nat.two_pow_pos _), Nat.add_mul_mod_self_left]

/-- Settles O47: the two branches of `Pack`. -/
theorem packRefusesLargeCodes : Obligations.PackRefusesLargeCodes := by
  intro codes w
  refine ⟨fun hlarge => ?_, fun hsmall => ⟨_, pack_ok.2 ⟨hsmall, rfl⟩⟩⟩
  exact if_pos (by simpa using hlarge)

end Sys2Proof.Machine
end

section
/-! PROOFS. `Inflate` and its fuel, its limit and the end of its input (41_inflate.md R102, R107, R128 to R131). Three
comparisons of two runs carry the statements: with more bits after the input every answer but `CorruptData` stays, with
more fuel every answer stays, and with another limit an accepted output is given or refused by its length alone. -/

namespace Sys2Proof.Machine

theorem ok_bind {α β : Type} (a : α) (f : α → Inf β) : (.ok a : Inf α) >>= f = f a := rfl

/-- `ReadBlock` after `BFINAL` and `BTYPE`: the data of the block (R108). -/
def blockData (fuel limit btype : Nat) (k : Work) : Inf Work :=
  if btype = 0 then storedBlock limit k
  else if btype = 1 then huffmanData fixedLitLen fixedDist limit fuel k
  else if btype = 2 then do
    let ((lit, dist), k) ← readDynamicTables k
    huffmanData lit dist limit fuel k
  else .error .corruptData

theorem readBlocks_succ (fuel limit n : Nat) (k : Work) :
    readBlocks fuel limit (n + 1) k = (do
      let (final, k) ← readBits 1 k
      let (btype, k) ← readBits 2 k
      let k ← blockData fuel limit btype k
      if final = 1 then .ok k else readBlocks fuel limit n k) := by
  rw [readBlocks, readBlock, bind_assoc]
  refine bind_congr fun ⟨final, k⟩ => ?_
  rw [bind_assoc]
  refine bind_congr fun ⟨btype, k⟩ => ?_
  dsimp only [blockData]
  split
  · rw [bind_assoc]; rfl
  · split
    · rw [bind_assoc]; rfl
    · split
      · rw [bind_assoc, bind_assoc]
        refine bind_congr fun ⟨⟨lit, dist⟩, k⟩ => ?_
        rw [bind_assoc]; rfl
      · rfl

/-! ### More bits after the input -/

/-- The same work with the bits `d` after those still to be read. -/
def Work.extend (d : List Bool) (k : Work) : Work := { k with rest := k.rest ++ d }

/-- The position and the bits still to be read make up a stream of `m` bits, and fewer than `n` bits are left. -/
def Work.Left (m n : Nat) (k : Work) : Prop := k.pos + k.rest.length = m ∧ k.rest.length < n

theorem Work.Left.mono {m n n' : Nat} {k : Work} (hk : k.Left m n) (h : n ≤ n') : k.Left m n' :=
  ⟨hk.1, hk.2.trans_le h⟩

theorem Work.Left.add {m n : Nat} {k : Work} (hk : k.Left m n) (j : Nat) : k.Left m (n + j) :=
  hk.mono (Nat.le_add_right n j)

/-- Every answer of `x` but `CorruptData` decides that of `y`: over the limit stays over the limit, and after a value
`a` the answer `y` meets `Q a`. -/
def Persists {α β : Type} (Q : α → Inf β → Prop) (x : Inf α) (y : Inf β) : Prop :=
  match x with
  | .ok a => Q a y
  | .error .corruptData => True
  | .error .decompressionLimitExceeded => y = .error .decompressionLimitExceeded

/-- Where `x` reads a value, `y` reads it too; the work of `x` then has fewer than `n` bits left, that of `y` has `d`
after them. -/
def Reads {α : Type} (d : List Bool) (m n : Nat) : Inf (α × Work) → Inf (α × Work) → Prop :=
  Persists fun r y => r.2.Left m n ∧ y = .ok (r.1, r.2.extend d)

/-- `Reads` for the parts that emit and answer the work alone. -/
def Emits (d : List Bool) (m n : Nat) : Inf Work → Inf Work → Prop :=
  Persists fun k y => k.Left m n ∧ y = .ok (k.extend d)

section Rules

variable {α β γ δ : Type} {d : List Bool} {m n : Nat} {Q : β → Inf γ → Prop}

theorem Persists.corrupt {y : Inf γ} : Persists Q (.error .corruptData) y := trivial

theorem Persists.ite {c : Prop} [Decidable c] {x x' : Inf β} {y y' : Inf γ} (h : Persists Q x y)
    (h' : Persists Q x' y') : Persists Q (if c then x else x') (if c then y else y') := by
  split
  · exact h
  · exact h'

theorem Persists.bind {P : α → Inf δ → Prop} {x : Inf α} {y : Inf δ} {f : α → Inf β} {g : δ → Inf γ}
    (h : Persists P x y) (hf : ∀ a, P a y → Persists Q (f a) (y >>= g)) : Persists Q (x >>= f) (y >>= g) := by
  match x, h with
  | .ok a, hy => exact hf a hy
  | .error .corruptData, _ => trivial
  | .error .decompressionLimitExceeded, hy => rw [hy]; rfl

theorem Reads.bind {x y : Inf (α × Work)} {f : α × Work → Inf β} {g : α × Work → Inf γ} (h : Reads d m n x y)
    (hf : ∀ a k, k.Left m n → Persists Q (f (a, k)) (g (a, k.extend d))) : Persists Q (x >>= f) (y >>= g) :=
  Persists.bind h fun ⟨a, k⟩ ⟨hk, hy⟩ => by rw [hy]; exact hf a k hk

theorem Emits.bind {x y : Inf Work} {f : Work → Inf β} {g : Work → Inf γ} (h : Emits d m n x y)
    (hf : ∀ k, k.Left m n → Persists Q (f k) (g (k.extend d))) : Persists Q (x >>= f) (y >>= g) :=
  Persists.bind h fun k ⟨hk, hy⟩ => by rw [hy]; exact hf k hk

end Rules

section Extend

variable {d : List Bool} {m n : Nat} {k : Work}

theorem nextBit_reads (hk : k.Left m (n + 1)) : Reads d m n (nextBit k) (nextBit (k.extend d)) := by
  obtain ⟨pos, rest, out⟩ := k
  obtain ⟨hpos, hlt⟩ := hk
  cases rest with
  | nil => trivial
  | cons v r =>
    have hleft : Work.Left m n ⟨pos + 1, r, out⟩ := by
      simp only [Work.Left, List.length_cons] at hpos hlt ⊢
      omega
    exact ⟨hleft, rfl⟩

theorem readBits_reads (j : Nat) (hk : k.Left m (n + j)) :
    Reads d m n (readBits j k) (readBits j (k.extend d)) := by
  induction j generalizing k with
  | zero => exact ⟨hk, rfl⟩
  | succ j ih => exact (nextBit_reads hk).bind fun b k hk => (ih hk).bind fun v k hk => ⟨hk, rfl⟩

theorem decodeSymFrom_reads (t : List HuffmanCode) (j b code : Nat) (hk : k.Left m (n + 1)) :
    Reads d m n (decodeSymFrom t j b code k) (decodeSymFrom t j b code (k.extend d)) := by
  induction j generalizing b code k with
  | zero => trivial
  | succ j ih =>
    refine (nextBit_reads hk).bind fun v k hk => ?_
    dsimp only
    split
    · exact ⟨hk, rfl⟩
    · exact ih _ _ (hk.add 1)

theorem decodeSym_reads (t : List HuffmanCode) (hk : k.Left m (n + 1)) :
    Reads d m n (decodeSym t k) (decodeSym t (k.extend d)) := decodeSymFrom_reads t 15 1 0 hk

theorem readClLengths_reads (ss cl : List Nat) (hk : k.Left m n) :
    Reads d m n (readClLengths ss cl k) (readClLengths ss cl (k.extend d)) := by
  induction ss generalizing cl k with
  | nil => exact ⟨hk, rfl⟩
  | cons s ss ih => exact (readBits_reads 3 (hk.add 3)).bind fun l k hk => ih _ hk

theorem readRepeat_reads (s : Nat) (ls : List Nat) (hk : k.Left m n) :
    Reads d m n (readRepeat s ls k) (readRepeat s ls (k.extend d)) := by
  refine .ite ?_ (.ite ?_ ?_)
  · split
    · trivial
    · exact (readBits_reads 2 (hk.add 2)).bind fun r k hk => ⟨hk, rfl⟩
  · exact (readBits_reads 3 (hk.add 3)).bind fun r k hk => ⟨hk, rfl⟩
  · exact (readBits_reads 7 (hk.add 7)).bind fun r k hk => ⟨hk, rfl⟩

theorem readLengths_reads (cl : List HuffmanCode) (total fuel : Nat) (ls : List Nat) (hk : k.Left m n) :
    Reads d m n (readLengths cl total fuel ls k) (readLengths cl total fuel ls (k.extend d)) := by
  induction fuel generalizing ls k with
  | zero => exact .ite ⟨hk, rfl⟩ trivial
  | succ fuel ih =>
    refine .ite ⟨hk, rfl⟩ ((decodeSym_reads cl (hk.add 1)).bind fun s k hk => .ite (ih _ hk) ?_)
    exact (readRepeat_reads s ls hk).bind fun r k hk => .ite .corrupt (ih _ hk)

theorem readDynamicTables_reads (hk : k.Left m n) :
    Reads d m n (readDynamicTables k) (readDynamicTables (k.extend d)) :=
  (readBits_reads 5 (hk.add 5)).bind fun _ _ hk => (readBits_reads 5 (hk.add 5)).bind fun _ _ hk =>
    (readBits_reads 4 (hk.add 4)).bind fun _ _ hk => .ite .corrupt <|
      (readClLengths_reads _ _ hk).bind fun _ _ hk => .ite .corrupt <|
        (readLengths_reads _ _ _ _ hk).bind fun _ _ hk => .ite ⟨hk, rfl⟩ .corrupt

theorem readBigEndian_reads (j a : Nat) (hk : k.Left m n) :
    Reads d m n (readBigEndian j a k) (readBigEndian j a (k.extend d)) := by
  induction j generalizing a k with
  | zero => exact ⟨hk, rfl⟩
  | succ j ih => exact (readBits_reads 8 (hk.add 8)).bind fun b k hk => ih _ hk

/-- In a stream of whole bytes the bits that `AlignByte` skips are there to be skipped (R104). -/
theorem alignByte_extend (h8 : 8 ∣ m) (hk : k.Left m n) : alignByte (k.extend d) = (alignByte k).extend d := by
  obtain ⟨hm, -⟩ := hk
  have hle : 8 * ((k.pos + 7) / 8) - k.pos ≤ k.rest.length := by omega
  simp only [alignByte, Work.extend, List.drop_append_of_le_length hle]

theorem alignByte_left (h8 : 8 ∣ m) (hk : k.Left m n) : (alignByte k).Left m n := by
  obtain ⟨hm, hn⟩ := hk
  simp only [Work.Left, alignByte, List.length_drop]
  omega

theorem readHeader_emits (hk : k.Left m n) : Emits d m n (readHeader k) (readHeader (k.extend d)) :=
  (readBits_reads 8 (hk.add 8)).bind fun _ _ hk => (readBits_reads 8 (hk.add 8)).bind fun _ _ hk =>
    .ite .corrupt (.ite .corrupt (.ite .corrupt (.ite .corrupt ⟨hk, rfl⟩)))

theorem emit_emits (limit : Nat) (b : Byte) (hk : k.Left m n) :
    Emits d m n (emit limit b k) (emit limit b (k.extend d)) := .ite rfl ⟨hk, rfl⟩

theorem storedBytes_emits (limit j : Nat) (hk : k.Left m n) :
    Emits d m n (storedBytes limit j k) (storedBytes limit j (k.extend d)) := by
  induction j generalizing k with
  | zero => exact ⟨hk, rfl⟩
  | succ j ih =>
    exact (readBits_reads 8 (hk.add 8)).bind fun b k hk => (emit_emits limit _ hk).bind fun k hk => ih hk

theorem storedBlock_emits (h8 : 8 ∣ m) (limit : Nat) (hk : k.Left m n) :
    Emits d m n (storedBlock limit k) (storedBlock limit (k.extend d)) := by
  rw [storedBlock, storedBlock, alignByte_extend h8 hk]
  exact (readBits_reads 16 ((alignByte_left h8 hk).add 16)).bind fun len k hk =>
    (readBits_reads 16 (hk.add 16)).bind fun nlen k hk => .ite .corrupt (storedBytes_emits limit len hk)

theorem copyMatch_emits (limit dist j : Nat) (hk : k.Left m n) :
    Emits d m n (copyMatch limit dist j k) (copyMatch limit dist j (k.extend d)) := by
  induction j generalizing k with
  | zero => exact ⟨hk, rfl⟩
  | succ j ih =>
    dsimp only [copyMatch, Work.extend]
    split
    · trivial
    · exact (emit_emits limit _ hk).bind fun k hk => ih hk

theorem readMatch_emits (dist : List HuffmanCode) (limit s : Nat) (hk : k.Left m n) :
    Emits d m n (readMatch dist limit s k) (readMatch dist limit s (k.extend d)) := by
  unfold readMatch
  -- As a term, `s - 257` would be unfolded by the unifier, 257 subtractions of one.
  generalize s - 257 = i
  exact .ite .corrupt <| (readBits_reads _ (hk.add _)).bind fun _ _ hk =>
    (decodeSym_reads dist (hk.add 1)).bind fun _ _ hk => .ite .corrupt <|
      (readBits_reads _ (hk.add _)).bind fun _ _ hk => .ite .corrupt (copyMatch_emits limit _ _ hk)

theorem huffmanData_emits (lit dist : List HuffmanCode) (limit fuel : Nat) (hk : k.Left m n) :
    Emits d m n (huffmanData lit dist limit fuel k) (huffmanData lit dist limit fuel (k.extend d)) := by
  induction fuel generalizing k with
  | zero => trivial
  | succ fuel ih =>
    refine (decodeSym_reads lit (hk.add 1)).bind fun s k hk => .ite ?literal (.ite ⟨hk, rfl⟩ ?pair)
    case literal => exact (emit_emits limit _ hk).bind fun k hk => ih hk
    case pair => exact (readMatch_emits dist limit s hk).bind fun k hk => ih hk

theorem blockData_emits (h8 : 8 ∣ m) (fuel limit btype : Nat) (hk : k.Left m n) :
    Emits d m n (blockData fuel limit btype k) (blockData fuel limit btype (k.extend d)) :=
  .ite (storedBlock_emits h8 limit hk) <| .ite (huffmanData_emits _ _ limit fuel hk) <|
    .ite ((readDynamicTables_reads hk).bind fun _ _ hk => huffmanData_emits _ _ limit fuel hk) .corrupt

theorem readBlocks_emits (h8 : 8 ∣ m) (fuel limit j : Nat) (hk : k.Left m n) :
    Emits d m n (readBlocks fuel limit j k) (readBlocks fuel limit j (k.extend d)) := by
  induction j generalizing k with
  | zero => trivial
  | succ j ih =>
    rw [readBlocks_succ, readBlocks_succ]
    exact (readBits_reads 1 (hk.add 1)).bind fun _ _ hk => (readBits_reads 2 (hk.add 2)).bind fun _ _ hk =>
      (blockData_emits h8 fuel limit _ hk).bind fun k hk => .ite ⟨hk, rfl⟩ (ih hk)

/-- Bits left after an accepted check value are `CorruptData` (R128). -/
theorem readTrailer_extend (h8 : 8 ∣ m) (hd : d ≠ []) (hk : k.Left m n) :
    Persists (fun _ y => y = .error .corruptData) (readTrailer k) (readTrailer (k.extend d)) := by
  rw [readTrailer, readTrailer, alignByte_extend h8 hk]
  refine (readBigEndian_reads 4 0 (alignByte_left h8 hk)).bind fun a k hk => .ite .corrupt ?_
  have hrest : (k.extend d).rest ≠ [] := List.append_ne_nil_of_right_ne_nil _ hd
  rw [if_pos hrest]
  split
  · trivial
  · exact rfl

end Extend

theorem length_streamBits (c : List Byte) : (streamBits c).length = 8 * c.length := by
  simp [streamBits, byteBits, List.length_flatMap, Nat.mul_comm]

/-- The work of `Inflate` before the header (R101). -/
def Work.start (c : List Byte) : Work := { pos := 0, rest := streamBits c, out := [] }

theorem inflateWith_eq (fuel : Nat) (c : List Byte) (limit : Nat) :
    inflateWith fuel c limit =
      readHeader (Work.start c) >>= fun k => readBlocks fuel limit fuel k >>= fun k =>
        readTrailer k >>= fun k => .ok k.out := rfl

theorem Work.start_append (c d : List Byte) : start (c ++ d) = (start c).extend (streamBits d) := by
  simp [start, extend, streamBits]

theorem Work.start_left {c : List Byte} {n : Nat} (h : 8 * c.length < n) : (start c).Left (8 * c.length) n := by
  simpa [Left, start, length_streamBits] using h

/-- With the same fuel, more bytes make an accepted stream corrupt and leave one over the limit over it (R128,
R130). -/
theorem inflateWith_append (fuel limit : Nat) (c : List Byte) {d : List Byte} (hd : d ≠ []) :
    Persists (fun _ y => y = .error .corruptData) (inflateWith fuel c limit) (inflateWith fuel (c ++ d) limit) := by
  have hbits : streamBits d ≠ [] := fun h => hd (by simpa [h] using length_streamBits d)
  have h8 : 8 ∣ 8 * c.length := Nat.dvd_mul_right 8 _
  have hheader := readHeader_emits (d := streamBits d) (Work.start_left (Nat.lt_succ_self (8 * c.length)))
  rw [← Work.start_append] at hheader
  rw [inflateWith_eq, inflateWith_eq]
  exact hheader.bind fun _ hk => (readBlocks_emits h8 fuel limit fuel hk).bind fun _ hk =>
    (readTrailer_extend h8 hbits hk).bind fun _ hy => by rw [hy]; rfl

/-! ### More fuel -/

theorem Ensures.bind_congr {α β : Type} {P : α → Prop} {x : Inf α} {f g : α → Inf β} (hx : Ensures x P)
    (h : ∀ a, P a → f a = g a) : x >>= f = x >>= g := by
  cases x with
  | error e => rfl
  | ok a => exact h a (hx a rfl)

/-- Every iteration of the loop adds a length (R118). -/
theorem readRepeat_pos (s : Nat) (ls : List Nat) (k : Work) : Ensures (readRepeat s ls k) fun r => 0 < r.1.2 := by
  refine .ite ?_ (.ite ?_ ?_)
  · split
    · exact .error _
    · exact Ensures.bind (readBits_keepsOut 2 k) fun r _ => .ok (Nat.add_pos_left (by decide) r.1)
  · exact Ensures.bind (readBits_keepsOut 3 k) fun r _ => .ok (Nat.add_pos_left (by decide) r.1)
  · exact Ensures.bind (readBits_keepsOut 7 k) fun r _ => .ok (Nat.add_pos_left (by decide) r.1)

theorem readLengths_of_le {cl : List HuffmanCode} {total : Nat} (fuel : Nat) {ls : List Nat} (k : Work)
    (h : total ≤ ls.length) : readLengths cl total fuel ls k = .ok (ls, k) := by
  unfold readLengths
  exact if_pos h

theorem readLengths_fuel (cl : List HuffmanCode) {total fuel : Nat} (more : Nat) {ls : List Nat} (k : Work)
    (h : total ≤ fuel + ls.length) :
    readLengths cl total (fuel + more) ls k = readLengths cl total fuel ls k := by
  induction fuel generalizing ls k with
  | zero =>
    have hle : total ≤ ls.length := by omega
    rw [readLengths_of_le _ k hle, readLengths_of_le _ k hle]
  | succ fuel ih =>
    rw [Nat.succ_add]
    refine if_congr Iff.rfl rfl (bind_congr fun ⟨s, k⟩ => if_congr Iff.rfl (ih k ?_) ?_)
    · simp only [List.length_append, List.length_singleton]; omega
    · refine (readRepeat_pos s ls k).bind_congr fun ⟨⟨v, r⟩, k⟩ hr => if_congr Iff.rfl rfl (ih k ?_)
      have hpos : 0 < r := hr
      simp only [List.length_append, List.length_replicate]; omega

section Fuel

variable {m n : Nat} {k : Work}

theorem Reads.bind_congr {α β : Type} {x y : Inf (α × Work)} {f g : α × Work → Inf β} (h : Reads [] m n x y)
    (hf : ∀ a k, k.Left m n → f (a, k) = g (a, k)) : x >>= f = x >>= g :=
  Ensures.bind_congr (P := fun r => r.2.Left m n) (fun _ hx => by rw [hx] at h; exact h.1) fun r => hf r.1 r.2

theorem Emits.bind_congr {β : Type} {x y : Inf Work} {f g : Work → Inf β} (h : Emits [] m n x y)
    (hf : ∀ k, k.Left m n → f k = g k) : x >>= f = x >>= g :=
  Ensures.bind_congr (fun _ hx => by rw [hx] at h; exact h.1) hf

/-- Every iteration reads a bit (R131). -/
theorem huffmanData_fuel (lit dist : List HuffmanCode) (limit more : Nat) (hk : k.Left m n) :
    huffmanData lit dist limit (n + more) k = huffmanData lit dist limit n k := by
  induction n generalizing k with
  | zero => exact absurd hk.2 (Nat.not_lt_zero _)
  | succ n ih =>
    rw [Nat.succ_add]
    refine (decodeSym_reads lit hk).bind_congr fun s k hk => ?_
    refine if_congr Iff.rfl ?literal (if_congr Iff.rfl rfl ?pair)
    case literal => exact (emit_emits limit _ hk).bind_congr fun _ hk => ih hk
    case pair => exact (readMatch_emits dist limit s hk).bind_congr fun _ hk => ih hk

theorem blockData_fuel (limit btype more : Nat) (hk : k.Left m n) :
    blockData (n + more) limit btype k = blockData n limit btype k :=
  if_congr Iff.rfl rfl <| if_congr Iff.rfl (huffmanData_fuel _ _ limit more hk) <|
    if_congr Iff.rfl ((readDynamicTables_reads hk).bind_congr fun _ _ hk =>
      huffmanData_fuel _ _ limit more hk) rfl

/-- Every block reads at least its header of three bits (R131). -/
theorem readBlocks_fuel (h8 : 8 ∣ m) {fuel : Nat} (limit more : Nat) (hn : n ≤ fuel) (hk : k.Left m n) :
    readBlocks (fuel + more) limit (n + more) k = readBlocks fuel limit n k := by
  induction n generalizing k with
  | zero => exact absurd hk.2 (Nat.not_lt_zero _)
  | succ n ih =>
    rw [Nat.succ_add, readBlocks_succ, readBlocks_succ]
    refine (readBits_reads 1 hk).bind_congr fun final k hk => ?_
    refine (readBits_reads 2 (hk.add 2)).bind_congr fun btype k hk => ?_
    dsimp only
    rw [blockData_fuel limit btype more (hk.mono (Nat.le_of_succ_le hn))]
    exact (blockData_emits h8 fuel limit btype hk).bind_congr fun k hk =>
      if_congr Iff.rfl rfl (ih (Nat.le_of_succ_le hn) hk)

end Fuel

theorem inflateWith_of_fuel_le {c : List Byte} {limit fuel : Nat} (h : 8 * c.length + limit + 2 ≤ fuel) :
    inflateWith fuel c limit = inflate c limit := by
  obtain ⟨more, rfl⟩ := Nat.exists_eq_add_of_le h
  have hstart : (Work.start c).Left (8 * c.length) (8 * c.length + limit + 2) := Work.start_left (by omega)
  rw [inflate, inflateWith_eq, inflateWith_eq]
  exact (readHeader_emits hstart).bind_congr fun k hk =>
    congrArg (· >>= _) (readBlocks_fuel (Nat.dvd_mul_right 8 _) limit more le_rfl hk)

/-- Settles O52: every symbol and every block reads a bit, and every iteration of R118 adds a length. -/
theorem inflateNeverRunsOutOfFuel : Obligations.InflateNeverRunsOutOfFuel :=
  ⟨fun _ _ _ h => inflateWith_of_fuel_le h, fun cl _ _ more _ k h => readLengths_fuel cl more k h⟩

/-! ### Bytes after the stream, and a stream cut short -/

theorem inflate_append (c : List Byte) {d : List Byte} (limit : Nat) (hd : d ≠ []) :
    Persists (fun _ y => y = .error .corruptData) (inflate c limit) (inflate (c ++ d) limit) := by
  have hfuel : 8 * c.length + limit + 2 ≤ 8 * (c ++ d).length + limit + 2 := by simp
  rw [← inflateWith_of_fuel_le hfuel]
  exact inflateWith_append _ limit c hd

/-- Settles O53: the run is that of the accepted stream up to the check of R128. -/
theorem bytesAfterTheStreamAreCorrupt : Obligations.BytesAfterTheStreamAreCorrupt := by
  intro c d limit out hok hd
  have h := inflate_append c limit hd
  rwa [hok] at h

/-- Settles O54: an answer other than `CorruptData` to the beginning would refuse the whole stream. -/
theorem truncatedStreamsAreCorrupt : Obligations.TruncatedStreamsAreCorrupt := by
  intro c n limit out hok hn
  have hdrop : c.drop n ≠ [] := fun h => Nat.not_le_of_lt hn (List.drop_eq_nil_iff.1 h)
  have h := inflate_append (c.take n) limit hdrop
  rw [List.take_append_drop, hok] at h
  match hx : inflate (c.take n) limit with
  | .error .corruptData => rfl
  | .ok _ => rw [hx] at h; exact nomatch h
  | .error .decompressionLimitExceeded => rw [hx] at h; exact nomatch h

/-! ### Another limit -/

/-- `x` goes on from `k` at some limit and `y` at `limit`. Where `x` answers, the output has only grown, and `y`, if the
output was within its limit, answers the same or refuses what has grown over it. -/
def Capped (limit : Nat) (k : Work) (x y : Inf Work) : Prop :=
  Ensures x fun r => k.out.length ≤ r.out.length ∧ (k.out.length ≤ limit →
    y = if r.out.length ≤ limit then .ok r else .error .decompressionLimitExceeded)

section Cap

variable {limit limit' : Nat} {k : Work}

theorem Capped.ok : Capped limit k (.ok k) (.ok k) := Ensures.ok ⟨le_rfl, fun h => (if_pos h).symm⟩

theorem Capped.corrupt {y : Inf Work} : Capped limit k (.error .corruptData) y := Ensures.error _

theorem Capped.ite {c : Prop} [Decidable c] {x x' y y' : Inf Work} (h : Capped limit k x y)
    (h' : Capped limit k x' y') : Capped limit k (if c then x else x') (if c then y else y') := by
  split
  · exact h
  · exact h'

theorem Capped.bind {x y : Inf Work} {f g : Work → Inf Work} (h : Capped limit k x y)
    (hf : ∀ k', Capped limit k' (f k') (g k')) : Capped limit k (x >>= f) (y >>= g) := by
  refine Ensures.bind h fun k' ⟨hgrow, hy⟩ r hr => ?_
  obtain ⟨hgrow', hy'⟩ := hf k' r hr
  refine ⟨hgrow.trans hgrow', fun hk => ?_⟩
  rw [hy hk]
  by_cases hk' : k'.out.length ≤ limit
  · rw [if_pos hk']; exact hy' hk'
  · rw [if_neg hk', if_neg fun hr => hk' (hgrow'.trans hr)]; rfl

/-- What follows a read starts from the same output. -/
theorem KeepsOut.bind_capped {α : Type} {x : Inf (α × Work)} {f g : α × Work → Inf Work} (hx : KeepsOut k x)
    (hf : ∀ a k', Capped limit k' (f (a, k')) (g (a, k'))) : Capped limit k (x >>= f) (x >>= g) := by
  cases x with
  | error e => exact .error e
  | ok r =>
    have hr := hf r.1 r.2
    rwa [Capped, hx r rfl] at hr

theorem emit_capped (b : Byte) : Capped limit k (emit limit' b k) (emit limit b k) := by
  refine Ensures.ite (Ensures.error _) (Ensures.ok ⟨by simp, fun hk => ?_⟩)
  simp only [emit, List.length_append, List.length_singleton]
  by_cases heq : k.out.length = limit
  · rw [if_pos heq, if_neg (by omega)]
  · rw [if_neg heq, if_pos (by omega)]

theorem storedBytes_capped (n : Nat) : Capped limit k (storedBytes limit' n k) (storedBytes limit n k) := by
  induction n generalizing k with
  | zero => exact .ok
  | succ n ih => exact (readBits_keepsOut 8 k).bind_capped fun _ k => (emit_capped _).bind fun _ => ih

theorem storedBlock_capped : Capped limit k (storedBlock limit' k) (storedBlock limit k) :=
  (readBits_keepsOut 16 (alignByte k)).bind_capped fun _ k => (readBits_keepsOut 16 k).bind_capped fun _ _ =>
    .ite .corrupt (storedBytes_capped _)

theorem copyMatch_capped (d n : Nat) : Capped limit k (copyMatch limit' d n k) (copyMatch limit d n k) := by
  induction n generalizing k with
  | zero => exact .ok
  | succ n ih =>
    unfold copyMatch
    split
    · exact .corrupt
    · exact (emit_capped _).bind fun _ => ih

theorem readMatch_capped (dist : List HuffmanCode) (s : Nat) :
    Capped limit k (readMatch dist limit' s k) (readMatch dist limit s k) :=
  .ite .corrupt <| (readBits_keepsOut _ k).bind_capped fun _ k => (decodeSym_keepsOut dist k).bind_capped fun _ k =>
    .ite .corrupt <| (readBits_keepsOut _ k).bind_capped fun _ _ => .ite .corrupt (copyMatch_capped _ _)

theorem huffmanData_capped (lit dist : List HuffmanCode) (fuel : Nat) :
    Capped limit k (huffmanData lit dist limit' fuel k) (huffmanData lit dist limit fuel k) := by
  induction fuel generalizing k with
  | zero => exact .corrupt
  | succ fuel ih =>
    refine (decodeSym_keepsOut lit k).bind_capped fun s k => .ite ?literal (.ite .ok ?pair)
    case literal => exact (emit_capped _).bind fun _ => ih
    case pair => exact (readMatch_capped dist s).bind fun _ => ih

theorem blockData_capped (fuel btype : Nat) :
    Capped limit k (blockData fuel limit' btype k) (blockData fuel limit btype k) :=
  .ite storedBlock_capped <| .ite (huffmanData_capped _ _ fuel) <|
    .ite ((readDynamicTables_keepsOut k).bind_capped fun _ _ => huffmanData_capped _ _ fuel) .corrupt

theorem readBlocks_capped (fuel n : Nat) :
    Capped limit k (readBlocks fuel limit' n k) (readBlocks fuel limit n k) := by
  induction n generalizing k with
  | zero => exact .corrupt
  | succ n ih =>
    rw [readBlocks_succ, readBlocks_succ]
    exact (readBits_keepsOut 1 k).bind_capped fun _ k => (readBits_keepsOut 2 k).bind_capped fun _ _ =>
      (blockData_capped fuel _).bind fun _ => .ite .ok ih

end Cap

theorem readTrailer_keepsOut (k : Work) : Ensures (readTrailer k) fun r => r.out = k.out :=
  Ensures.bind (readBigEndian_keepsOut 4 0 (alignByte k)) fun _ ho => .ite (.error _) (.ite (.error _) (.ok ho))

theorem inflateWith_limit (fuel limit limit' : Nat) (c : List Byte) :
    Ensures (inflateWith fuel c limit') fun out => inflateWith fuel c limit =
      if out.length ≤ limit then .ok out else .error .decompressionLimitExceeded := by
  rw [inflateWith_eq, inflateWith_eq]
  refine Ensures.bind (fun _ h => h) fun k (hheader : readHeader (Work.start c) = .ok k) => ?_
  refine Ensures.bind (readBlocks_capped (limit := limit) fuel fuel) fun k' ⟨_, hblocks⟩ => ?_
  refine Ensures.bind (fun _ h => h) fun r (htrailer : readTrailer k' = .ok r) => .ok ?_
  have hk : k.out.length ≤ limit := readHeader_within (Nat.zero_le _) k hheader
  have hout : r.out = k'.out := readTrailer_keepsOut k' r htrailer
  rw [hheader, ok_bind, hblocks hk, ← hout]
  split
  · rw [ok_bind, htrailer, ok_bind]
  · rfl

/-- Settles O51: every byte emitted is the same at both limits until one is the byte over the smaller limit. -/
theorem limitOnlyBoundsTheOutput : Obligations.LimitOnlyBoundsTheOutput := by
  intro c limit out hok
  refine ⟨inflate_length_le hok, fun l => ?_⟩
  have hfuel : 8 * c.length + limit + 2 ≤ 8 * c.length + (limit + l) + 2 := by omega
  have hfuel' : 8 * c.length + l + 2 ≤ 8 * c.length + (limit + l) + 2 := by omega
  rw [← inflateWith_of_fuel_le hfuel] at hok
  rw [← inflateWith_of_fuel_le hfuel']
  exact inflateWith_limit _ l limit c out hok

/-! ### Concrete streams and codes -/

/-- Settles O50: the stream is accepted with limit 2, and the output of two bytes decides every other limit. -/
theorem exampleStreamDecodes : Obligations.ExampleStreamDecodes := by
  have haccepted :
      inflate [0x78, 0xDA, 0xDB, 0xB9, 0x18, 0x00, 0x02, 0x17, 0x01, 0x5D] 2 = .ok [0xB9, 0xA3] := by
    decide +kernel
  obtain ⟨-, hlimit⟩ := limitOnlyBoundsTheOutput _ _ _ haccepted
  exact ⟨fun limit h => (hlimit limit).trans (if_pos h), hlimit 1⟩

/-- Settles O49: `AssignCodes` evaluated on the two arrays of lengths. -/
theorem fixedCodesAreTheTables : Obligations.FixedCodesAreTheTables := by
  unfold Obligations.FixedCodesAreTheTables
  exact ⟨by decide +kernel, by decide +kernel⟩

end Sys2Proof.Machine
end

section
/-! PROOFS. The commands on the buffers (42_compress.md R158 to R161, 40_bitpacker.md R90, R91): under the invariants
each ends in a next state (`exec_proceeds`), and which one is a case of what it can do. -/

namespace Sys2Proof.Machine

variable {s : State}

/-- Settles O39: the response and the register it sets. -/
theorem cclrEmptiesTheCompressedBuffer : Obligations.CclrEmptiesTheCompressedBuffer :=
  fun s => respond_eq .ok 0 (s.withClen 0)

/-- Settles O41: each answers a register and changes the response alone. -/
theorem lengthCommandsAnswerTheLengths : Obligations.LengthCommandsAnswerTheLengths :=
  fun s => ⟨respond_eq .ok s.clen s, respond_eq .ok s.plen s⟩

theorem execCput_of_full (h : Invariants s) (b : Byte) (hfull : s.clen.toNat = s.cfg.cbufBytes) :
    execCput b s = .next (s.failed .capacityExceeded) := by
  obtain ⟨t, ht⟩ := execCput_proceeds h b
  obtain ⟨-, rfl⟩ | ⟨hroom, -⟩ := execCput_next ht
  · exact ht
  · omega

theorem execCput_of_room (h : Invariants s) (b : Byte) (hroom : s.clen.toNat < s.cfg.cbufBytes) :
    execCput b s =
      .next (((s.withCbuf (s.cbuf.write s.clen.toNat b)).withClen (s.clen + 1)).done 0) := by
  obtain ⟨t, ht⟩ := execCput_proceeds h b
  obtain ⟨hfull, -⟩ | ⟨-, rfl⟩ := execCput_next ht
  · omega
  · exact ht

/-- Settles O40: the byte is written right after the last one of the CompressedBuffer, and `CLEN` is below
`CBUF_BYTES`, so it does not wrap. -/
theorem cputAppendsTheByte : Obligations.CputAppendsTheByte := by
  refine fun b s h => ⟨execCput_of_full h b, fun hroom => ⟨_, execCput_of_room h b hroom, rfl, ?_⟩⟩
  obtain ⟨_, _, _, hcbuf, _⟩ := h.params
  have hclen : (s.clen + 1).toNat = s.clen.toNat + 1 := toNat_succ (by omega)
  refine ⟨hclen, ?_, rfl⟩
  exact (congrArg (Memory.readRange _ 0) hclen).trans (Memory.readRange_write_end h.cbufForm s.clen.toNat b)

theorem execCget_eq (h : Invariants s) (a : Word) :
    execCget a s = .next (if a.toNat < s.clen.toNat then s.done (zext32 (s.cbuf.read a.toNat))
      else s.failed .indexOutOfBounds) := by
  obtain ⟨t, ht⟩ := execCget_proceeds h a
  obtain ⟨ha, rfl⟩ | ⟨ha, -, rfl⟩ := execCget_next ht
  · rwa [if_neg (Nat.not_lt_of_le ha)]
  · rwa [if_pos ha]

theorem execPget_eq (h : Invariants s) (a : Word) :
    execPget a s = .next (if a.toNat < s.plen.toNat then s.done (zext32 (s.pbuf.read a.toNat))
      else s.failed .indexOutOfBounds) := by
  obtain ⟨t, ht⟩ := execPget_proceeds h a
  obtain ⟨ha, rfl⟩ | ⟨ha, -, rfl⟩ := execPget_next ht
  · rwa [if_neg (Nat.not_lt_of_le ha)]
  · rwa [if_pos ha]

/-- Settles O42: the byte sequence has an element at an address exactly where the address is below its length. -/
theorem byteCommandsAnswerTheByte : Obligations.ByteCommandsAnswerTheByte := by
  refine fun a s h => ⟨(execCget_eq h a).trans ?_, (execPget_eq h a).trans ?_⟩
  · rw [State.compressed, Memory.getElem?_readRange, Nat.zero_add]
    split_ifs <;> rfl
  · rw [State.packed, Memory.getElem?_readRange, Nat.zero_add]
    split_ifs <;> rfl

end Sys2Proof.Machine
end

section
/-! PROOFS. The reference kernel `CompressRef` (42_compress.md R155 to R157). `Inflate` reads its output part by part:
the header, the one block of literals, the padding, the check value. Each lemma says what one reader answers on the bits
written for it, whatever bits follow. -/

namespace Sys2Proof.Machine

variable {p : Nat} {r : List Bool} {o : List Byte}

/-! ### Numbers and bytes as bits -/

/-- `Bits(n)` reads the low `n` bits of a number back, least significant first (R103). -/
theorem readBits_testBits (n v : Nat) :
    readBits n ⟨p, (List.range n).map v.testBit ++ r, o⟩ = .ok (v % 2 ^ n, ⟨p + n, r, o⟩) := by
  induction n generalizing p v with
  | zero => simp [readBits, Nat.mod_one]
  | succ n ih =>
    have hhalf : (v.testBit ∘ Nat.succ) = (v / 2).testBit := funext fun i => Nat.testBit_succ v i
    have hvalue : (v.testBit 0).toNat + 2 * (v / 2 % 2 ^ n) = v % 2 ^ (n + 1) := by
      rw [Nat.toNat_testBit, pow_succ', Nat.mod_mul, pow_zero, Nat.div_one]
    rw [readBits, List.range_succ_eq_map, List.map_cons, List.map_map, hhalf, List.cons_append]
    simp only [nextBit, ok_bind, ih, hvalue, Nat.add_assoc, Nat.add_comm 1 n]

theorem readBits_byteBits (x : Byte) :
    readBits 8 ⟨p, byteBits x ++ r, o⟩ = .ok (x.toNat, ⟨p + 8, r, o⟩) :=
  (readBits_testBits 8 x.toNat).trans (by rw [Nat.mod_eq_of_lt x.isLt])

theorem byteBits_byteOfBits : ∀ b0 b1 b2 b3 b4 b5 b6 b7 : Bool,
    byteBits (byteOfBits [b0, b1, b2, b3, b4, b5, b6, b7]) = [b0, b1, b2, b3, b4, b5, b6, b7] := by decide

theorem streamBits_append (c d : List Byte) : streamBits (c ++ d) = streamBits c ++ streamBits d :=
  List.flatMap_append

/-- Whole bytes of bits are cut into bytes and read back in the same order (R102, R155). -/
theorem streamBits_bytesOfBits {bs : List Bool} (h : 8 ∣ bs.length) : streamBits (bytesOfBits bs) = bs := by
  induction bs using bytesOfBits.induct with
  | case1 b0 b1 b2 b3 b4 b5 b6 b7 bs ih =>
    have h8 : 8 ∣ bs.length := (Nat.dvd_add_left (dvd_refl 8)).1 h
    rw [bytesOfBits, streamBits, List.flatMap_cons, byteBits_byteOfBits, ← streamBits, ih h8]
    rfl
  | case2 bs hshort =>
    match bs with
    | [] => rfl
    | [_] | [_, _] | [_, _, _] | [_, _, _, _] | [_, _, _, _, _] | [_, _, _, _, _, _] | [_, _, _, _, _, _, _] =>
      simp at h
    | b0 :: b1 :: b2 :: b3 :: b4 :: b5 :: b6 :: b7 :: bs => exact (hshort b0 b1 b2 b3 b4 b5 b6 b7 bs rfl).elim

theorem dvd_length_padToByte (bs : List Bool) : 8 ∣ (padToByte bs).length := by
  simp only [padToByte, List.length_append, List.length_replicate]
  omega

/-! ### Decoding a symbol -/

/-- No code of the table begins another one. -/
def PrefixFree (t : List HuffmanCode) : Prop :=
  ∀ e ∈ t, ∀ e' ∈ t, e'.len ≤ e.len → e'.code = e.code >>> (e.len - e'.len) → e' = e

@[simp] theorem length_msbFirst (n v : Nat) : (msbFirst n v).length = n := by
  simp [msbFirst]

theorem msbFirst_succ (n v : Nat) : msbFirst (n + 1) v = v.testBit n :: msbFirst n v := by
  simp [msbFirst, List.range_succ]

/-- One more bit of a code, read after the bits above it. -/
theorem shiftRight_succ_testBit (v n : Nat) : 2 * (v >>> (n + 1)) + (v.testBit n).toNat = v >>> n := by
  rw [Nat.toNat_testBit, Nat.shiftRight_succ, Nat.shiftRight_eq_div_pow]
  omega

/-- `DecodeSym` with the last `m` bits of a code of the table still to be read: before the last of them no code of the
table matches. -/
theorem decodeSymFrom_of_mem {t : List HuffmanCode} (ht : PrefixFree t) {e : HuffmanCode} (he : e ∈ t) {m n : Nat}
    (hm : 0 < m) (hlen : m ≤ e.len) (hn : m ≤ n) :
    decodeSymFrom t n (e.len - m + 1) (e.code >>> m) ⟨p, msbFirst m e.code ++ r, o⟩ =
      .ok (e.sym, ⟨p + m, r, o⟩) := by
  induction m generalizing n p with
  | zero => omega
  | succ m ih =>
    obtain ⟨n, rfl⟩ : ∃ n', n = n' + 1 := ⟨n - 1, by omega⟩
    have hb : e.len - (m + 1) + 1 = e.len - m := by omega
    rw [decodeSymFrom, msbFirst_succ, List.cons_append]
    simp only [nextBit, ok_bind, shiftRight_succ_testBit, hb]
    split
    · rename_i e' hfound
      have hmem := List.mem_of_find?_eq_some hfound
      have hcode := List.find?_some hfound
      simp only [List.mem_filter, beq_iff_eq] at hmem hcode
      obtain ⟨hmem, hlen'⟩ := hmem
      obtain rfl := ht e he e' hmem (by omega) (by rw [hcode, hlen']; congr 1; omega)
      obtain rfl : m = 0 := by omega
      rfl
    · rename_i hnone
      have hm : 0 < m := by
        refine Nat.pos_of_ne_zero fun hm => ?_
        subst hm
        simpa using List.find?_eq_none.1 hnone e (by simpa using he)
      have hrest := ih (p := p + 1) hm (by omega) (Nat.le_of_succ_le_succ hn)
      rwa [Nat.add_assoc, Nat.add_comm 1 m] at hrest

theorem decodeSym_of_mem {t : List HuffmanCode} (ht : PrefixFree t) {e : HuffmanCode} (he : e ∈ t) (hpos : 0 < e.len)
    (hlen : e.len ≤ 15) (hcode : e.code < 2 ^ e.len) :
    decodeSym t ⟨p, msbFirst e.len e.code ++ r, o⟩ = .ok (e.sym, ⟨p + e.len, r, o⟩) := by
  have h := decodeSymFrom_of_mem (p := p) (r := r) (o := o) ht he hpos le_rfl hlen
  rwa [Nat.sub_self, Nat.shiftRight_eq_zero _ _ hcode] at h

/-! ### The fixed code -/

theorem mem_fixedLitLen {e : HuffmanCode} : e ∈ fixedLitLen ↔
    (e.sym ≤ 143 ∧ e.len = 8 ∧ e.code = 0x30 + e.sym) ∨
    (144 ≤ e.sym ∧ e.sym ≤ 255 ∧ e.len = 9 ∧ e.code = 0x190 + e.sym - 144) ∨
    (256 ≤ e.sym ∧ e.sym ≤ 279 ∧ e.len = 7 ∧ e.code = e.sym - 256) ∨
    (280 ≤ e.sym ∧ e.sym ≤ 287 ∧ e.len = 8 ∧ e.code = 0xC0 + e.sym - 280) := by
  obtain ⟨sym, len, code⟩ := e
  obtain ⟨htable, -⟩ := fixedCodesAreTheTables
  rw [htable, List.mem_map]
  dsimp only
  constructor
  · rintro ⟨s, hs, he⟩
    rw [List.mem_range] at hs
    split_ifs at he <;> cases he <;> omega
  · intro h
    refine ⟨sym, List.mem_range.2 (by omega), ?_⟩
    split_ifs <;> simp only [HuffmanCode.mk.injEq, true_and] <;> omega

/-- The codes of 7 bits are below 24, those of 8 bits from 48 to 199, those of 9 bits from 400 on. -/
theorem fixedLitLen_prefixFree : PrefixFree fixedLitLen := by
  rintro ⟨sym, len, code⟩ he ⟨sym', len', code'⟩ he' hle hcode
  rw [mem_fixedLitLen] at he he'
  dsimp only at he he' hle hcode
  have hshift : len - len' = 0 ∨ len - len' = 1 ∨ len - len' = 2 := by omega
  simp only [HuffmanCode.mk.injEq]
  rcases hshift with h | h | h <;> rw [h, Nat.shiftRight_eq_div_pow] at hcode <;> omega

theorem decodeSym_literal (x : Byte) :
    decodeSym fixedLitLen ⟨p, literalBits x ++ r, o⟩ = .ok (x.toNat, ⟨p + (literalBits x).length, r, o⟩) := by
  have hx : x.toNat < 256 := x.isLt
  have hdecode {l c : Nat} (he : ⟨x.toNat, l, c⟩ ∈ fixedLitLen) (hpos : 0 < l) (hlen : l ≤ 15) (hc : c < 2 ^ l) :
      decodeSym fixedLitLen ⟨p, msbFirst l c ++ r, o⟩ = .ok (x.toNat, ⟨p + (msbFirst l c).length, r, o⟩) := by
    rw [length_msbFirst]
    exact decodeSym_of_mem fixedLitLen_prefixFree he hpos hlen hc
  rw [literalBits]
  split
  · exact hdecode (mem_fixedLitLen.2 (by dsimp only; omega)) (by decide) (by decide) (by omega)
  · exact hdecode (mem_fixedLitLen.2 (by dsimp only; omega)) (by decide) (by decide) (by omega)

theorem decodeSym_endOfBlock :
    decodeSym fixedLitLen ⟨p, List.replicate 7 false ++ r, o⟩ = .ok (256, ⟨p + 7, r, o⟩) :=
  decodeSym_of_mem (e := ⟨256, 7, 0⟩) fixedLitLen_prefixFree (mem_fixedLitLen.2 (by decide)) (by decide) (by decide)
    (by decide)

/-! ### The block -/

/-- The literals of a block and its end symbol give the bytes back, if the limit has room for them. -/
theorem huffmanData_literals (dist : List HuffmanCode) {limit fuel : Nat} (b : List Byte) (hfuel : b.length < fuel)
    (hlimit : o.length + b.length ≤ limit) :
    huffmanData fixedLitLen dist limit fuel ⟨p, b.flatMap literalBits ++ (List.replicate 7 false ++ r), o⟩ =
      .ok ⟨p + (b.flatMap literalBits).length + 7, r, o ++ b⟩ := by
  induction b generalizing p o fuel with
  | nil =>
    obtain ⟨fuel, rfl⟩ := Nat.exists_eq_add_of_lt hfuel
    rw [List.flatMap_nil, List.nil_append, huffmanData, decodeSym_endOfBlock, List.append_nil]
    rfl
  | cons x b ih =>
    obtain ⟨fuel, rfl⟩ : ∃ n, fuel = n + 1 := ⟨fuel - 1, by omega⟩
    rw [List.length_cons] at hfuel hlimit
    have hroom : o.length ≠ limit := by omega
    have hx : x.toNat < 256 := x.isLt
    have hrest := ih (p := p + (literalBits x).length) (o := o ++ [x]) (Nat.lt_of_succ_lt_succ hfuel)
      (by rw [List.length_append, List.length_singleton]; omega)
    rw [List.flatMap_cons, List.append_assoc, huffmanData, decodeSym_literal, ok_bind]
    simp only [if_pos hx, emit, if_neg hroom, ok_bind, BitVec.ofNat_toNat, BitVec.setWidth_eq, hrest]
    simp [Nat.add_assoc]

theorem blockBits_eq (b : List Byte) :
    blockBits b = true :: true :: false :: (b.flatMap literalBits ++ List.replicate 7 false) := rfl

/-- The one block of the reference kernel is final and holds the bytes (R155). -/
theorem readBlocks_blockBits {limit fuel : Nat} (n : Nat) (b : List Byte) (hfuel : b.length < fuel)
    (hlimit : b.length ≤ limit) :
    readBlocks fuel limit (n + 1) ⟨p, blockBits b ++ r, []⟩ = .ok ⟨p + (blockBits b).length, r, b⟩ := by
  have hdata := huffmanData_literals (p := p + 3) (r := r) (o := []) fixedDist b hfuel (by simpa using hlimit)
  have hfinal : readBits 1 ⟨p, blockBits b ++ r, []⟩ =
      .ok (1, ⟨p + 1, true :: false :: (b.flatMap literalBits ++ List.replicate 7 false) ++ r, []⟩) := rfl
  have hbtype : readBits 2 ⟨p + 1, true :: false :: (b.flatMap literalBits ++ List.replicate 7 false) ++ r, []⟩ =
      .ok (1, ⟨p + 3, b.flatMap literalBits ++ (List.replicate 7 false ++ r), []⟩) := by
    rw [← List.append_assoc]; rfl
  rw [readBlocks_succ, hfinal]
  simp only [ok_bind, hbtype, blockData, one_ne_zero, if_false, if_true, hdata, blockBits_eq, List.nil_append]
  simp only [List.length_cons, List.length_append, List.length_replicate, Except.ok.injEq, Work.mk.injEq, and_true]
  omega

/-! ### The header and the trailer -/

theorem readHeader_of_reference :
    readHeader ⟨0, streamBits [0x78, 0xDA] ++ r, []⟩ = .ok ⟨16, r, []⟩ := rfl

theorem alignByte_padding : alignByte ⟨p, List.replicate ((8 - p % 8) % 8) false ++ r, o⟩ =
    ⟨8 * ((p + 7) / 8), r, o⟩ := by
  have hpad : 8 * ((p + 7) / 8) - p = (8 - p % 8) % 8 := by omega
  rw [alignByte, hpad, List.drop_left' List.length_replicate]

theorem foldl_adlerStep_lt (d : List Byte) {s : Nat × Nat} (hs : s.1 < 2 ^ 16 ∧ s.2 < 2 ^ 16) :
    (d.foldl adlerStep s).1 < 2 ^ 16 ∧ (d.foldl adlerStep s).2 < 2 ^ 16 := by
  induction d generalizing s with
  | nil => exact hs
  | cons x d ih => exact ih (by simp only [adlerStep]; omega)

theorem adler32_lt (d : List Byte) : adler32 d < 2 ^ 32 := by
  obtain ⟨h1, h2⟩ := foldl_adlerStep_lt d (s := (1, 0)) (by decide)
  exact Nat.or_lt_two_pow (by rw [Nat.shiftLeft_eq]; omega) (h1.trans (by decide))

/-- The most significant bytes of a number with one more byte of it (R126). -/
theorem shiftLeft_or_byte (a n : Nat) :
    (a >>> (n + 8)) <<< 8 ||| (BitVec.ofNat 8 (a >>> n)).toNat = a >>> n := by
  rw [BitVec.toNat_ofNat, ← Nat.shiftLeft_add_eq_or_of_lt (Nat.mod_lt _ (by decide)), Nat.shiftRight_add,
    Nat.shiftLeft_eq, Nat.shiftRight_eq_div_pow _ 8, Nat.div_add_mod']

theorem readBigEndian_bigEndian32 {a : Nat} (ha : a < 2 ^ 32) :
    readBigEndian 4 0 ⟨p, streamBits (bigEndian32 a) ++ r, o⟩ = .ok (a, ⟨p + 32, r, o⟩) := by
  have hfirst : 0 <<< 8 ||| (BitVec.ofNat 8 (a >>> 24)).toNat = a >>> 24 := by
    have h := shiftLeft_or_byte a 24
    rwa [Nat.shiftRight_eq_zero a (24 + 8) ha] at h
  have hlast : (a >>> 8) <<< 8 ||| (BitVec.ofNat 8 a).toNat = a := shiftLeft_or_byte a 0
  simp only [bigEndian32, streamBits, List.flatMap_cons, List.flatMap_nil, List.append_assoc, List.nil_append,
    readBigEndian, readBits_byteBits, ok_bind, hfirst, shiftLeft_or_byte a 16, shiftLeft_or_byte a 8, hlast]

theorem readTrailer_bigEndian32 : readTrailer
    ⟨p, List.replicate ((8 - p % 8) % 8) false ++ streamBits (bigEndian32 (adler32 o)), o⟩ =
      .ok ⟨8 * ((p + 7) / 8) + 32, [], o⟩ := by
  have h := readBigEndian_bigEndian32 (p := 8 * ((p + 7) / 8)) (r := []) (o := o) (adler32_lt o)
  rw [List.append_nil] at h
  simp only [readTrailer, alignByte_padding, h, ok_bind, ne_eq, not_true_eq_false, if_false]

/-! ### The whole stream -/

theorem streamBits_compressRef (b : List Byte) : streamBits (compressRef b) = streamBits [0x78, 0xDA] ++
    (blockBits b ++ (List.replicate ((8 - (blockBits b).length % 8) % 8) false ++
      streamBits (bigEndian32 (adler32 b)))) := by
  rw [compressRef, streamBits_append, streamBits_append, streamBits_bytesOfBits (dvd_length_padToByte _), padToByte]
  simp only [List.append_assoc]

/-- Settles O55: each part of the stream is read back by its reader, and the fuel is more than one per byte. -/
theorem referenceKernelIsLossless : Obligations.ReferenceKernelIsLossless := by
  intro b limit hlimit
  have hmod : (16 + (blockBits b).length) % 8 = (blockBits b).length % 8 := by omega
  rw [inflate, inflateWith_eq, Work.start, streamBits_compressRef, readHeader_of_reference, ok_bind,
    readBlocks_blockBits _ b (by omega) hlimit, ok_bind, ← hmod, readTrailer_bigEndian32]
  rfl

/-! ### The size -/

theorem length_literals (b : List Byte) : (b.flatMap literalBits).length =
    8 * b.length + (b.filter fun x => decide (144 ≤ x.toNat)).length := by
  induction b with
  | nil => rfl
  | cons x b ih =>
    rw [List.flatMap_cons, List.length_append, ih, List.length_cons, literalBits, List.filter_cons]
    by_cases hx : 144 ≤ x.toNat
    · have hx' : ¬ x.toNat ≤ 143 := by omega
      simp only [hx, hx', decide_true, if_true, if_false, length_msbFirst, List.length_cons]
      omega
    · have hx' : x.toNat ≤ 143 := by omega
      simp only [hx, hx', decide_false, Bool.false_eq_true, if_true, if_false, length_msbFirst]
      omega

theorem length_blockBits (b : List Byte) : (blockBits b).length =
    10 + 8 * b.length + (b.filter fun x => decide (144 ≤ x.toNat)).length := by
  simp only [blockBits_eq, List.length_cons, List.length_append, List.length_replicate, length_literals]
  omega

/-- The stream is the bits of the block in whole bytes, between two bytes of header and four of check value. -/
theorem length_compressRef (b : List Byte) : (compressRef b).length = 2 + ((blockBits b).length + 7) / 8 + 4 := by
  have h := congrArg List.length (streamBits_compressRef b)
  simp only [length_streamBits, List.length_append, List.length_replicate, bigEndian32, List.length_cons,
    List.length_nil] at h
  omega

/-- Settles O56: a literal takes 8 bits, and one more from 144 on, of which there are at most all. -/
theorem referenceKernelSize : Obligations.ReferenceKernelSize := by
  intro b
  have hlarge : (b.filter fun x => decide (144 ≤ x.toNat)).length ≤ b.length := List.length_filter_le _ _
  rw [length_compressRef, length_blockBits]
  exact ⟨rfl, by omega, by omega, fun m hm => by omega⟩

end Sys2Proof.Machine
end

section
/-! PROOFS. The builder commands (43_builder_commands.md R170 to R175): the two checks of the phase that `BADD` and `BFIN`
begin with, then an equation per case of a command, in any state that has the bytes the case needs. -/

namespace Sys2Proof.Machine

variable {s : State} {c : Word}

/-! ### The checks of the phase -/

theorem State.hasBuilder.not_idle_or_dec (hb : s.hasBuilder) : ¬ (s.phase = .idle ∨ s.phase = .dec) := by
  rcases hb with hp | hp <;> simp [hp]

theorem ite_phase_of_built {x y z : Result} (hp : s.phase = .built) :
    (if s.phase = .idle ∨ s.phase = .dec then x else if s.phase = .built then y else z) = y := by
  simp [hp]

theorem ite_phase_of_opened {x y z : Result} (ho : s.phase = .opened) :
    (if s.phase = .idle ∨ s.phase = .dec then x else if s.phase = .built then y else z) = z := by
  simp [ho]

/-! ### `BNEW` and `BCNT` -/

/-- Settles O26: the two cases of what `BNEW` can do. -/
theorem bnewMakesAnEmptyBuilder : Obligations.BnewMakesAnEmptyBuilder :=
  fun _ _ => ⟨fun hw => execBnew_next.2 (.inl ⟨hw, rfl⟩), fun hw => execBnew_next.2 (.inr ⟨hw, rfl⟩)⟩

/-- Settles O32: the two cases of what `BCNT` can do. -/
theorem bcntAnswersTheCount : Obligations.BcntAnswersTheCount :=
  fun _ => ⟨fun hb => execBcnt_next.2 (.inr ⟨State.hasBuilder.not_idle_or_dec hb, rfl⟩),
    fun hp => execBcnt_next.2 (.inl ⟨hp, rfl⟩)⟩

/-! ### `BADD` -/

theorem execBadd_of_large (ho : s.phase = .opened) (hc : 2 ^ s.width.toNat ≤ c.toNat) :
    execBadd c s = .next (s.failed .valueOutOfRange) :=
  (ite_phase_of_opened ho).trans (if_pos hc)

theorem execBadd_of_full (ho : s.phase = .opened) (hc : c.toNat < 2 ^ s.width.toNat)
    (hoff : s.appendOffset % 8 = 0) (hfull : s.appendOffset / 8 = s.cfg.pbufBytes) :
    execBadd c s = .next (s.failed .capacityExceeded) :=
  (ite_phase_of_opened ho).trans <| (if_neg hc.not_ge).trans <| (if_pos hoff).trans (if_pos hfull)

theorem execBadd_of_boundary (ho : s.phase = .opened) (hc : c.toNat < 2 ^ s.width.toNat)
    (hoff : s.appendOffset % 8 = 0) (hroom : s.appendOffset / 8 < s.cfg.pbufBytes) :
    execBadd c s = .next ((s.beginByte c.toNat).done 0) := by
  have hwrite := (State.writePacked_ok (b := BitVec.ofNat 8 (operandNat c))).2 ⟨hroom, rfl⟩
  refine (ite_phase_of_opened ho).trans <| (if_neg hc.not_ge).trans <| (if_pos hoff).trans <|
    (if_neg hroom.ne).trans ?_
  rw [hwrite]
  rfl

theorem execBadd_of_within (ho : s.phase = .opened) (hc : c.toNat < 2 ^ s.width.toNat)
    (hoff : s.appendOffset % 8 ≠ 0) (hroom : s.appendOffset / 8 < s.cfg.pbufBytes) :
    execBadd c s = .next ((s.extendByte c.toNat).done 0) := by
  have hread := State.readPacked_ok.2 ⟨hroom, rfl⟩
  have hwrite (b : Byte) := (State.writePacked_ok (b := b)).2 ⟨hroom, rfl⟩
  refine (ite_phase_of_opened ho).trans <| (if_neg hc.not_ge).trans <| (if_neg hoff).trans ?_
  rw [hread, attempt_ok, hwrite]
  rfl

/-- Settles O27: on a byte boundary and within a byte, the byte written is the one by which `Pack` of one more code
differs. -/
theorem baddAppendsTheCode : Obligations.BaddAppendsTheCode := by
  intro c s codes h ho hcodes hc hroom
  have hcount := h.count_succ ho hroom
  by_cases hoff : s.appendOffset % 8 = 0
  · exact ⟨_, execBadd_of_boundary ho hc hoff hroom, rfl, holdsCodes_beginByte h ho hcodes hc hoff hroom, hcount, ho,
      rfl, rfl⟩
  · exact ⟨_, execBadd_of_within ho hc hoff hroom, rfl, holdsCodes_extendByte h ho hcodes hc hoff hroom, hcount, ho,
      rfl, rfl⟩

/-- Settles O28: the byte written reads back, with the shift as a multiplication. -/
theorem baddWritesOneByte : Obligations.BaddWritesOneByte := by
  intro c s ho hc hwf hroom
  have hread (b : Byte) : (s.pbuf.write (s.appendOffset / 8) b).read (s.appendOffset / 8) = b :=
    (Memory.read_write hwf _ b _).trans (if_pos rfl)
  by_cases hoff : s.appendOffset % 8 = 0
  · exact ⟨_, execBadd_of_boundary ho hc hoff hroom, rfl, rfl, fun _ => ⟨rfl, hread _⟩, fun hne => absurd hoff hne⟩
  · refine ⟨_, execBadd_of_within ho hc hoff hroom, rfl, rfl, fun hz => absurd hz hoff, fun _ => ⟨rfl, ?_⟩⟩
    rw [← Nat.shiftLeft_eq]
    exact hread _

/-- Settles O29: the checks of `BADD` in their order; a full buffer ends on a byte boundary. -/
theorem baddErrorsInOrder : Obligations.BaddErrorsInOrder := by
  refine fun c s => ⟨fun hp => if_pos hp, ite_phase_of_built, execBadd_of_large, fun ho hc hfull => ?_⟩
  have hbits : s.appendOffset = 8 * s.cfg.pbufBytes := hfull
  exact execBadd_of_full ho hc (by omega) (by omega)

/-! ### `BFIN` -/

theorem execBfin_of_full (ho : s.phase = .opened) (hplen : s.plen.toNat ≤ s.cfg.pbufBytes)
    (hfull : s.cfg.cbufBytes < (compress s.cfg s.packed).length) :
    execBfin s = .next (s.failed .capacityExceeded) := by
  have hread := (State.packedBytes_ok (d := s.packed)).2 ⟨hplen, rfl⟩
  refine (ite_phase_of_opened ho).trans ?_
  rw [hread]
  exact if_pos hfull

theorem execBfin_of_fits (ho : s.phase = .opened) (hplen : s.plen.toNat ≤ s.cfg.pbufBytes)
    (hfits : (compress s.cfg s.packed).length ≤ s.cfg.cbufBytes) :
    execBfin s = .next ((((s.withCbuf (s.cbuf.writeRange 0 (compress s.cfg s.packed))).withClen
      (BitVec.ofNat 32 (compress s.cfg s.packed).length)).withPhase .built).done
      (resultNat (compress s.cfg s.packed).length)) := by
  have hread := (State.packedBytes_ok (d := s.packed)).2 ⟨hplen, rfl⟩
  have hwrite := State.storeCompressed_ok.2 ⟨hfits, rfl⟩
  refine (ite_phase_of_opened ho).trans ?_
  rw [hread, attempt_ok]
  refine (if_neg hfits.not_gt).trans ?_
  rw [hwrite]
  rfl

/-- Settles O30: the output is stored from address 0 and its length is below `2^32`, so `CLEN` covers exactly it. -/
theorem bfinCompressesTheBuffer : Obligations.BfinCompressesTheBuffer := by
  intro s h ho hfits
  obtain ⟨-, -, -, hbytes, -⟩ := h.params
  have hclen : (BitVec.ofNat 32 (compress s.cfg s.packed).length).toNat = (compress s.cfg s.packed).length :=
    Nat.mod_eq_of_lt (by omega)
  refine ⟨_, execBfin_of_fits ho h.i8.1 hfits, rfl, ?_, hclen, rfl, rfl, rfl, rfl, rfl⟩
  exact (congrArg (Memory.readRange _ 0) hclen).trans (Memory.readRange_writeRange h.cbufForm 0 _)

/-- Settles O31: the checks of `BFIN` in their order. -/
theorem bfinErrorsInOrder : Obligations.BfinErrorsInOrder :=
  fun _ => ⟨fun hp => if_pos hp, ite_phase_of_built, execBfin_of_full⟩

/-! ### The codes of a builder -/

/-- Settles O33: the lane of a code of a packing is the code. -/
theorem builderCodesAreRecoverable : Obligations.BuilderCodesAreRecoverable := by
  intro s codes i h hb hcodes hi
  obtain ⟨-, -, hpack⟩ := hcodes
  have hidle : s.phase ≠ .idle := fun hp => hb.not_idle_or_dec (.inl hp)
  have hw := h.width_legal hidle
  rw [unpackOne_of_lt hw (hi.trans_le (length_le_cap_of_pack hw hpack)), laneAt_of_pack hw hpack,
    List.getD_eq_getElem _ _ hi]

end Sys2Proof.Machine
end

section
/-! PROOFS. The decoder commands (44_decoder_commands.md R180 to R184): an equation per case of `DNEW`, `GET` and `LEN`
by the lanes and the capacity of the packed buffer, and what a list built and finalized decodes to. -/

namespace Sys2Proof.Machine

variable {s : State} {w i : Word}

/-! ### `DNEW` -/

/-- The state after `DNEW` on an accepted stream, but for the response: a decoder of the output (R180). -/
def State.openDecoder (s : State) (w : BitVec 4) (out : List Byte) : State :=
  (s.withPbuf (s.pbuf.writeRange 0 out)).withContext .dec w 0 (BitVec.ofNat 32 out.length)

theorem execDnew_of_illegal (h : Invariants s) (hw : ¬ LegalWidth w) :
    execDnew w s = .next (s.failed .invalidBitWidth) := by
  obtain ⟨t, ht⟩ := execDnew_proceeds h w
  obtain ⟨-, rfl⟩ | ⟨_, hlegal, -⟩ | ⟨_, hlegal, -⟩ := execDnew_next ht
  · exact ht
  · exact absurd hlegal hw
  · exact absurd hlegal hw

theorem execDnew_of_refused {e : InflateError} (h : Invariants s) (hw : LegalWidth w)
    (he : inflate s.compressed s.cfg.maxExpanded = .error e) :
    execDnew w s = .next ((s.losePacked.withContext .idle 0 0 0).failed e.status) := by
  obtain ⟨t, ht⟩ := execDnew_proceeds h w
  obtain ⟨hillegal, -⟩ | ⟨_, -, -, he', rfl⟩ | ⟨_, -, -, hout, -⟩ := execDnew_next ht
  · exact absurd hw hillegal
  · cases he.symm.trans he'
    exact ht
  · cases he.symm.trans hout

theorem execDnew_of_accepted {out : List Byte} (h : Invariants s) (hw : LegalWidth w)
    (hout : inflate s.compressed s.cfg.maxExpanded = .ok out) :
    execDnew w s = .next ((s.openDecoder (widthOf w) out).done (resultNat out.length)) := by
  obtain ⟨t, ht⟩ := execDnew_proceeds h w
  obtain ⟨hillegal, -⟩ | ⟨_, -, -, he, -⟩ | ⟨_, -, -, hout', -, rfl⟩ := execDnew_next ht
  · exact absurd hw hillegal
  · cases hout.symm.trans he
  · cases hout.symm.trans hout'
    exact ht

/-- A decoder of bytes that the packed space has room for holds exactly these: their number does not wrap. -/
theorem Invariants.openDecoder_packed (h : Invariants s) (w : BitVec 4) {out : List Byte}
    (hfits : out.length ≤ s.cfg.pbufBytes) :
    (s.openDecoder w out).plen.toNat = out.length ∧ (s.openDecoder w out).packed = out := by
  obtain ⟨-, hbits, -⟩ := h.params
  have hplen : (s.openDecoder w out).plen.toNat = out.length := Nat.mod_eq_of_lt (by omega)
  refine ⟨hplen, ?_⟩
  rw [State.packed, hplen]
  exact Memory.readRange_writeRange h.pbufForm 0 out

/-- Settles O34: the three cases of `DNEW`; what `Inflate` accepts is within `MAX_EXPANDED`, so the packed space has
room for it. -/
theorem dnewDecompresses : Obligations.DnewDecompresses := by
  refine fun w s h => ⟨execDnew_of_illegal h, fun hw => ?_⟩
  match hinflate : inflate s.compressed s.cfg.maxExpanded with
  | .ok out =>
    have hfits : out.length ≤ s.cfg.pbufBytes := (inflate_length_le hinflate).trans h.maxExpanded_le
    obtain ⟨hplen, hpacked⟩ := h.openDecoder_packed (widthOf w) hfits
    exact ⟨_, execDnew_of_accepted h hw hinflate, rfl, rfl, rfl, rfl, rfl, rfl, hplen, hpacked⟩
  | .error e => exact ⟨_, execDnew_of_refused h hw hinflate, rfl, rfl, rfl, rfl, rfl, rfl, rfl⟩

/-! ### `GET` and `LEN` -/

@[simp] theorem State.length_packed (s : State) : s.packed.length = s.plen.toNat :=
  Memory.length_readRange _ _ _

theorem laneAt_packed (hi : i.toNat < cap s.plen.toNat s.width.toNat) :
    laneAt s.packed s.width.toNat i.toNat = lane (s.pbuf.read (i.toNat * s.width.toNat / 8))
      (i.toNat * s.width.toNat % 8) s.width.toNat := by
  rw [laneAt, List.getD_eq_getElem?_getD, State.packed, Memory.getElem?_readRange,
    if_pos (lane_byte_lt_of_lt_cap hi), Nat.zero_add, Option.getD_some]

theorem execGet_of_idle (hp : s.phase = .idle) (i : Word) :
    execGet i s = .next (s.failed .illegalState) := if_pos hp

/-- With a context, `GET` answers a lane of the packed buffer below its capacity and fails from there on (R181). -/
theorem execGet_eq (h : Invariants s) (hp : s.phase ≠ .idle) (i : Word) :
    execGet i s = .next (if i.toNat < cap s.plen.toNat s.width.toNat
      then s.done (zext32 (laneAt s.packed s.width.toNat i.toNat)) else s.failed .indexOutOfBounds) := by
  obtain ⟨t, ht⟩ := execGet_proceeds h i
  obtain ⟨hidle, -⟩ | ⟨-, hi, rfl⟩ | ⟨-, hi, -, rfl⟩ := execGet_next ht
  · exact absurd hidle hp
  · rwa [if_neg (Nat.not_lt_of_le hi)]
  · rwa [if_pos hi, laneAt_packed hi]

/-- Settles O35: `UnpackOne` answers the same lane below the same capacity. -/
theorem getAnswersUnpackOne : Obligations.GetAnswersUnpackOne := by
  refine fun i s h => ⟨fun hp => execGet_of_idle hp i, fun hp => ?_⟩
  have hget : exec (.get i) s = _ := execGet_eq h hp i
  rw [← s.length_packed] at hget
  by_cases hi : i.toNat < cap s.packed.length s.width.toNat
  · rw [unpackOne_of_lt (h.width_legal hp) hi, hget, if_pos hi]
    rfl
  · rw [unpackOne_of_ge (Nat.le_of_not_lt hi), hget, if_neg hi]
    exact ⟨rfl, rfl⟩

theorem answers_get_of_lt (h : Invariants s) (hp : s.phase ≠ .idle)
    (hi : i.toNat < cap s.plen.toNat s.width.toNat) :
    Answers (.get i) s .ok (zext32 (laneAt s.packed s.width.toNat i.toNat)) :=
  ⟨_, (execGet_eq h hp i).trans (congrArg _ (if_pos hi)), rfl⟩

theorem answers_get_of_ge (h : Invariants s) (hp : s.phase ≠ .idle)
    (hi : cap s.plen.toNat s.width.toNat ≤ i.toNat) : Answers (.get i) s .indexOutOfBounds 0 :=
  ⟨_, (execGet_eq h hp i).trans (congrArg _ (if_neg (Nat.not_lt_of_le hi))), rfl⟩

theorem execLen_of_context (hp : s.phase ≠ .idle) :
    execLen s = .next (s.done (resultNat (cap s.plen.toNat s.width.toNat))) :=
  execLen_next.2 (.inr ⟨hp, rfl⟩)

/-- The capacity is at most the number of bits of the packed space, which is below `2^32` (00_scope.md R6). -/
theorem Invariants.toNat_resultNat_cap (h : Invariants s) :
    (resultNat (cap s.plen.toNat s.width.toNat)).toNat = cap s.plen.toNat s.width.toNat := by
  obtain ⟨-, hbits, -⟩ := h.params
  have hplen := h.i8.1
  have hcap : cap s.plen.toNat s.width.toNat ≤ 8 * s.plen.toNat := Nat.div_le_self _ _
  exact Nat.mod_eq_of_lt (by omega)

/-- Settles O37: the result of `LEN` has room for the capacity. -/
theorem lenAnswersTheCapacity : Obligations.LenAnswersTheCapacity :=
  fun _ h => ⟨fun hp => execLen_next.2 (.inl ⟨hp, rfl⟩),
    fun hp => ⟨_, execLen_of_context hp, h.toNat_resultNat_cap⟩⟩

/-- A byte is the same number as a result (30_encoding.md R66). -/
theorem toNat_zext32 (b : Byte) : (zext32 b).toNat = b.toNat :=
  BitVec.toNat_setWidth_of_le (by decide)

/-- Settles O36: `LEN` answers the capacity, which is what `GET` compares its index with. -/
theorem getSucceedsExactlyBelowLen : Obligations.GetSucceedsExactlyBelowLen := by
  refine fun s h hp => ⟨_, ⟨_, execLen_of_context hp, rfl⟩, fun i => ?_⟩
  rw [h.toNat_resultNat_cap]
  refine ⟨fun hi => ⟨_, answers_get_of_lt h hp hi, ?_⟩, answers_get_of_ge h hp⟩
  rw [toNat_zext32]
  exact toNat_lane_lt _ _ _

/-! ### A list built, finalized and decoded -/

/-- `WIDTH` as the operand of a later command (R184). -/
theorem legalWidth_setWidth {v : BitVec 4} (hv : v = 1 ∨ v = 2 ∨ v = 4 ∨ v = 8) :
    LegalWidth (v.setWidth 32) ∧ widthOf (v.setWidth 32) = v := by
  rcases hv with rfl | rfl | rfl | rfl <;> decide

/-- The premise on the kernel, which is open but for R150 (42_compress.md), makes it lossless on `b`: the reference
kernel is (R157). -/
theorem inflate_compress {cfg : Config} {b : List Byte} {limit : Nat}
    (hkernel : cfg.kernel = .reference ∨ inflate (compress cfg b) limit = .ok b) (hlimit : b.length ≤ limit) :
    inflate (compress cfg b) limit = .ok b := by
  rcases hkernel with href | hlossless
  · rw [compress, href]
    exact referenceKernelIsLossless b limit hlimit
  · exact hlossless

/-- After `BFIN` the compressed buffer is the compressor's output, and the invariants hold. -/
theorem exec_bfin_of_fits (h : Invariants s) (ho : s.phase = .opened)
    (hfits : (compress s.cfg s.packed).length ≤ s.cfg.cbufBytes) :
    ∃ t, exec .bfin s = .next t ∧ Invariants t ∧ t.compressed = compress s.cfg s.packed ∧ t.cfg = s.cfg := by
  obtain ⟨t, ht, -, hcompressed, -⟩ := bfinCompressesTheBuffer s h ho hfits
  have hcfg : t.cfg = s.cfg := by
    cases (execBfin_of_fits ho h.i8.1 hfits).symm.trans ht
    rfl
  exact ⟨t, ht, exec_keeps_invariants h ht, hcompressed, hcfg⟩

/-- `GET` on a packing answers each code (R183). -/
theorem answers_get_code {codes : List Nat} (h : Invariants s) (hp : s.phase ≠ .idle)
    (hpack : pack codes s.width.toNat = .ok s.packed) (hi : i.toNat < codes.length) :
    Answers (.get i) s .ok (BitVec.ofNat 32 codes[i.toNat]) := by
  have hw := h.width_legal hp
  have hget := answers_get_of_lt h hp (s.length_packed ▸ hi.trans_le (length_le_cap_of_pack hw hpack))
  rwa [zext32, ← BitVec.ofNat_toNat, toNat_laneAt_of_pack hw hpack hi] at hget

/-- `GET` on a packing answers 0 in the padding (R183). -/
theorem answers_get_padding {codes : List Nat} (h : Invariants s) (hp : s.phase ≠ .idle)
    (hpack : pack codes s.width.toNat = .ok s.packed) (hlen : codes.length ≤ i.toNat)
    (hi : i.toNat < cap s.plen.toNat s.width.toNat) : Answers (.get i) s .ok 0 := by
  have hget := answers_get_of_lt h hp hi
  rwa [laneAt_of_pack (h.width_legal hp) hpack, List.getD_eq_default _ _ hlen] at hget

/-- Settles O57: `DNEW` gets from the compressed buffer the packed buffer that `BFIN` compressed, whose lanes are the
codes and, after them, 0. -/
theorem builtListsDecodeToTheirCodes : Obligations.BuiltListsDecodeToTheirCodes := by
  intro s codes h ho ⟨_, _, hpack⟩ hkernel hfits hlimit
  obtain ⟨hw32, hwidth⟩ := legalWidth_setWidth (h.i2 (by simp [ho]))
  rw [← length_of_pack hpack] at hlimit ⊢
  obtain ⟨t, hbfin, ht, hcompressed, hcfg⟩ := exec_bfin_of_fits h ho hfits
  have hinflate : inflate t.compressed t.cfg.maxExpanded = .ok s.packed := by
    rw [hcompressed, hcfg]
    exact inflate_compress hkernel hlimit
  have hdnew := execDnew_of_accepted ht hw32 hinflate
  rw [hwidth] at hdnew
  have hu := exec_keeps_invariants (i := .dnew _) ht hdnew
  obtain ⟨hplen, hpacked⟩ := ht.openDecoder_packed s.width (hlimit.trans (hcfg ▸ ht.maxExpanded_le))
  have hpack' := hpack.trans (congrArg _ hpacked.symm)
  refine ⟨t, _, hbfin, hdnew, rfl, hpacked, ?_, fun i => answers_get_code hu nofun hpack', fun i hlen hi => ?_⟩
  · rw [← hplen]
    exact ⟨_, execLen_of_context nofun, rfl⟩
  · rw [← hplen] at hi
    exact answers_get_padding hu nofun hpack' hlen hi

/-- Settles O58: `Inflate` with a smaller limit refuses the packed buffer that `BFIN` compressed. -/
theorem listsBeyondTheLimitAreRefused : Obligations.ListsBeyondTheLimitAreRefused := by
  intro s codes h ho ⟨_, _, hpack⟩ hkernel hfits hlimit
  obtain ⟨hw32, -⟩ := legalWidth_setWidth (h.i2 (by simp [ho]))
  obtain ⟨t, ht, hinv, hcompressed, hcfg⟩ := exec_bfin_of_fits h ho hfits
  obtain ⟨-, hbounds⟩ := limitOnlyBoundsTheOutput _ _ _ (inflate_compress hkernel le_rfl)
  have hinflate : inflate t.compressed t.cfg.maxExpanded = .error .decompressionLimitExceeded := by
    rw [hcompressed, hcfg, hbounds, if_neg (by rw [length_of_pack hpack]; omega)]
  exact ⟨t, ht, _, execDnew_of_refused hinv hw32 hinflate, rfl⟩

end Sys2Proof.Machine
end

section
/-! PROOFS. The system commands (45_system_commands.md R190, R191) and the answer to a word that is none (R192, R193):
`STAT` answers the context laid out in four fields. -/

namespace Sys2Proof.Machine

variable {s : State}

/-- Settles O6: a word of no format decodes to no command. -/
theorem illegalWordsAnswerIllegalCommand : Obligations.IllegalWordsAnswerIllegalCommand := by
  intro s w rest hhost hillegal
  match hd : decode w with
  | .ok i => exact absurd ((legalWordsAreThoseOfTheFormats w).1 ⟨i, hd⟩) hillegal
  | .error _ => exact (step_of_illegal hhost hd).trans (illegalCommand_eq _)

/-- Settles O24: the response and the registers it resets. -/
theorem rstSetsTheResetValues : Obligations.RstSetsTheResetValues :=
  fun s => respond_eq .ok 0 s.resetRegisters

/-! ### The result of `STAT` -/

/-- The phase and the width do not overlap, so the result of `STAT` is its four fields side by side. -/
theorem statResult_eq_append (p : Phase) (w : BitVec 4) :
    statResult p w = (0 : BitVec 24) ++ (w ++ ((0 : BitVec 2) ++ p.code)) := by
  cases p <;> revert w <;> decide

/-- The four fields of R191. -/
theorem statResult_fields (p : Phase) (w : BitVec 4) :
    (statResult p w).extractLsb' 0 2 = p.code ∧ (statResult p w).extractLsb' 2 2 = 0 ∧
      (statResult p w).extractLsb' 4 4 = w ∧ (statResult p w).extractLsb' 8 24 = 0 := by
  rw [statResult_eq_append]
  refine ⟨?_, ?_, ?_, BitVec.extractLsb'_append_eq_left⟩ <;>
    rw [BitVec.extractLsb'_append_eq_of_add_le (by decide)]
  · rw [BitVec.extractLsb'_append_eq_of_add_le (by decide), BitVec.extractLsb'_append_eq_right]
  · rw [BitVec.extractLsb'_append_eq_of_add_le (by decide), BitVec.extractLsb'_append_eq_left]
  · exact BitVec.extractLsb'_append_eq_left

/-- The width is 0 in `IDLE`, and in each of the other three phases one of four (10_state.md R30 I1, I2). -/
theorem Invariants.statResult_mem (h : Invariants s) : statResult s.phase s.width ∈
    [(0 : Word), 0x11, 0x12, 0x13, 0x21, 0x22, 0x23, 0x41, 0x42, 0x43, 0x81, 0x82, 0x83] := by
  cases hp : s.phase with
  | idle =>
    rw [h.i1.1 hp]
    decide
  | opened | built | dec =>
    have hctx : s.phase ≠ .idle := by simp [hp]
    rcases h.i2 hctx with hw | hw | hw | hw <;> rw [hw] <;> decide

/-- Settles O25: the fields of the result, and the contexts that the invariants allow. -/
theorem statAnswersPhaseAndWidth : Obligations.StatAnswersPhaseAndWidth := by
  intro s
  obtain ⟨hphase, hlow, hwidth, hhigh⟩ := statResult_fields s.phase s.width
  exact ⟨_, respond_eq .ok _ s, hphase, hlow, hwidth, hhigh, Invariants.statResult_mem⟩

end Sys2Proof.Machine
end

section
/-! PROOFS. Errors (60_exceptions.md R210 to R230): the three ways a command ends, from which follow the statuses that
can appear (R211 to R221) and that an error has no effect but its response (R226). -/

namespace Sys2Proof.Machine

variable {s t : State} {i : Instr}

/-- Settles O8: the equation of a step without input. -/
theorem idleBlockHoldsItsState : Obligations.IdleBlockHoldsItsState := fun _ => step_of_no_input

/-- Settles O10: the numbers of the eleven statuses, each in the top byte of a response. -/
theorem statusNumbersAndPlaces : Obligations.StatusNumbersAndPlaces := by
  unfold Obligations.StatusNumbersAndPlaces
  decide

/-! ### How a command ends -/

/-- The states in which a command can end. -/
inductive EndsIn (i : Instr) (s : State) : State → Prop where
  /-- It completes, whatever it wrote. -/
  | done (u : State) (r : Word) : EndsIn i s (u.done r)
  /-- It raises an error, never the reserved one (R218), and writes nothing. -/
  | failed {e : Status} (he : e ≠ .malformedEncoding) : EndsIn i s (s.failed e)
  /-- It is a `DNEW` that fails while decompressing, which destroys the context (R216). -/
  | destroyed {w : Word} (hi : i = .dnew w) (hw : LegalWidth w) (e : InflateError) :
      EndsIn i s ((s.losePacked.withContext .idle 0 0 0).failed e.status)

theorem exec_endsIn (h : exec i s = .next t) : EndsIn i s t := by
  cases i with
  | rst | cclr | stat | clen | plen => exact respond_next.1 h ▸ .done _ _
  | bnew w =>
    obtain ⟨-, rfl⟩ | ⟨-, rfl⟩ := execBnew_next.1 h
    exacts [.done _ _, .failed nofun]
  | badd c =>
    obtain ⟨-, rfl⟩ | ⟨-, rfl⟩ | ⟨-, -, rfl⟩ | ⟨-, -, -, -, rfl⟩ | ⟨-, -, -, -, rfl⟩ | ⟨-, -, -, -, rfl⟩ :=
      execBadd_next h
    iterate 4 exact .failed nofun
    iterate 2 exact .done _ _
  | bfin =>
    obtain ⟨-, rfl⟩ | ⟨-, rfl⟩ | ⟨-, -, -, rfl⟩ | ⟨-, -, -, rfl⟩ := execBfin_next h
    iterate 3 exact .failed nofun
    exact .done _ _
  | bcnt =>
    obtain ⟨-, rfl⟩ | ⟨-, rfl⟩ := execBcnt_next.1 h
    exacts [.failed nofun, .done _ _]
  | dnew w =>
    obtain ⟨-, rfl⟩ | ⟨e, hw, -, -, rfl⟩ | ⟨out, -, -, -, -, rfl⟩ := execDnew_next h
    exacts [.failed nofun, .destroyed rfl hw e, .done _ _]
  | get n =>
    obtain ⟨-, rfl⟩ | ⟨-, -, rfl⟩ | ⟨-, -, -, rfl⟩ := execGet_next h
    exacts [.failed nofun, .failed nofun, .done _ _]
  | len =>
    obtain ⟨-, rfl⟩ | ⟨-, rfl⟩ := execLen_next.1 h
    exacts [.failed nofun, .done _ _]
  | cput b =>
    obtain ⟨-, rfl⟩ | ⟨-, rfl⟩ := execCput_next h
    exacts [.failed nofun, .done _ _]
  | cget a =>
    obtain ⟨-, rfl⟩ | ⟨-, -, rfl⟩ := execCget_next h
    exacts [.failed nofun, .done _ _]
  | pget a =>
    obtain ⟨-, rfl⟩ | ⟨-, -, rfl⟩ := execPget_next h
    exacts [.failed nofun, .done _ _]

/-! ### The statuses that appear -/

theorem InflateError.status_ne_malformedEncoding (e : InflateError) : e.status ≠ .malformedEncoding := by
  cases e <;> nofun

/-- Of the numbers 0 to 10 of the statuses only the reserved status has the number 7. -/
theorem Status.code_bounds {st : Status} (h : st ≠ .malformedEncoding) :
    st.code.toNat ≤ 10 ∧ st.code.toNat ≠ 7 := by
  cases st with
  | malformedEncoding => exact absurd rfl h
  | _ => decide

theorem EndsIn.rsp_eq (h : EndsIn i s t) : ∃ st r, st ≠ .malformedEncoding ∧ t.rsp = some (responseWord st r) := by
  cases h with
  | done u r => exact ⟨.ok, r, nofun, rfl⟩
  | failed he => exact ⟨_, 0, he, rfl⟩
  | destroyed _ _ e => exact ⟨e.status, 0, e.status_ne_malformedEncoding, rfl⟩

/-- The step of a command word answers a status that is not reserved, be the word legal or not. -/
theorem step_rsp_eq {w : PortWord} {rest : List HostInput} (hhost : s.host = .command w :: rest)
    (h : step s = .next t) : ∃ st r, st ≠ .malformedEncoding ∧ t.rsp = some (responseWord st r) := by
  match hd : decode w with
  | .ok i =>
    rw [step_of_command hhost hd] at h
    exact (exec_endsIn h).rsp_eq
  | .error _ =>
    rw [step_of_illegal hhost hd] at h
    exact ⟨.illegalCommand, 0, nofun, raise_next.1 h ▸ rfl⟩

/-- Settles O11: the status of a response is one of the eleven, and not the reserved one. -/
theorem reservedStatusesNeverAppear : Obligations.ReservedStatusesNeverAppear := by
  intro s t w rest q hhost hstep hq
  obtain ⟨st, r, hst, hrsp⟩ := step_rsp_eq hhost hstep
  obtain rfl : responseWord st r = q := Option.some.inj (hrsp.symm.trans hq)
  rw [responseStatus_responseWord]
  exact Status.code_bounds hst

/-! ### The effect of an error -/

/-- Settles O17: a command that completes answers status 0, one that raises an error changes the response alone, and
only `DNEW` can end in another way. -/
theorem failedCommandsHaveNoEffect : Obligations.FailedCommandsHaveNoEffect := by
  intro i s t q h hq herror
  cases exec_endsIn h with
  | done u r =>
    obtain rfl : responseWord .ok r = q := Option.some.inj hq
    exact absurd (responseStatus_responseWord .ok r) herror
  | failed => exact .inl (hq ▸ rfl)
  | destroyed hi hw e => exact .inr ⟨_, hi, hw, rfl, rfl, rfl, rfl, rfl, rfl, rfl, rfl⟩

end Sys2Proof.Machine
end

section
/-! PROOFS. Reset and hazards (70_reset_and_hazards.md R240 to R255): what a reset leaves and how every command answers
then, how long a finalized builder lasts, and what `GET` and `LEN` do not depend on. -/

namespace Sys2Proof.Machine

variable {s t u : State} {i : Instr}

/-! ### The reset input -/

/-- Settles O7: both lengths are 0 afterwards, so the bytes of the buffers, which the reset input loses and `RST` keeps,
are hidden. -/
theorem resetInputLeavesResetState : Obligations.ResetInputLeavesResetState := by
  intro s x rest hhost
  exact ⟨_, _, (step_of_reset hhost).trans (hardReset_eq _), rstSetsTheResetValues _,
    ⟨rfl, rfl, rfl, rfl, rfl, rfl, rfl, rfl, Memory.agreeBelow_zero, Memory.agreeBelow_zero⟩,
    rfl, rfl, rfl, rfl, rfl, rfl⟩

/-! ### The answers in the reset state -/

/-- A stream without a byte ends before its header (41_inflate.md R102, R105). -/
theorem inflate_nil (limit : Nat) : inflate [] limit = .error .corruptData := rfl

theorem execDnew_of_empty {w : Word} (hw : LegalWidth w) (hclen : s.clen = 0) :
    execDnew w s = .next ((s.losePacked.withContext .idle 0 0 0).failed .corruptData) := by
  have hread : s.compressedBytes s.clen.toNat = .ok [] :=
    State.compressedBytes_ok.2 (hclen ▸ ⟨Nat.zero_le _, rfl⟩)
  rw [execDnew, if_pos (legalWidth_iff.2 hw), hread, attempt_ok, inflate_nil]
  rfl

/-- The compressed space has at least 8 bytes (00_scope.md R6), so an empty one has room. -/
theorem execCput_of_empty (hcfg : s.cfg.wf) (hclen : s.clen = 0) (b : Byte) :
    execCput b s = .next (((s.withCbuf (s.cbuf.write s.clen.toNat b)).withClen (s.clen + 1)).done 0) := by
  obtain ⟨-, -, hbytes, -⟩ := hcfg
  have hroom : s.clen.toNat < s.cfg.cbufBytes := by
    rw [hclen]
    exact Nat.lt_of_lt_of_le (by decide) hbytes
  rw [execCput, if_neg hroom.ne, State.writeCompressed_ok.2 ⟨hroom, rfl⟩]
  rfl

/-- Settles O23: without a context the commands on one refuse, and with both lengths 0 every address is out of bounds
and the compressed stream is empty. -/
theorem answersInTheResetState : Obligations.AnswersInTheResetState := by
  intro s hphase hwidth _ hplen hclen hcfg
  have hnone : s.phase = .idle ∨ s.phase = .dec := .inl hphase
  have hstat : statResult s.phase s.width = 0 := by rw [hphase, hwidth]; rfl
  have hbound (n a : Word) (hn : n = 0) : n.toNat ≤ a.toNat := hn ▸ Nat.zero_le _
  exact ⟨⟨_, respond_eq .ok _ s, by rw [hstat]; rfl⟩,
    ⟨_, respond_eq .ok _ s, by rw [hplen]; rfl⟩,
    ⟨_, respond_eq .ok _ s, by rw [hclen]; rfl⟩,
    fun a => ⟨⟨_, if_pos (hbound _ a hplen), rfl⟩, ⟨_, if_pos (hbound _ a hclen), rfl⟩⟩,
    fun c => ⟨_, if_pos hnone, rfl⟩,
    ⟨_, if_pos hnone, rfl⟩,
    ⟨_, if_pos hnone, rfl⟩,
    fun i => ⟨_, execGet_of_idle hphase i, rfl⟩,
    ⟨_, if_pos hphase, rfl⟩,
    fun w hw => ⟨⟨_, execDnew_of_empty hw hclen, rfl⟩, ⟨_, execBnew_next.2 (.inl ⟨hw, rfl⟩), rfl⟩⟩,
    fun w hw => ⟨⟨_, if_neg (mt legalWidth_iff.1 hw), rfl⟩, ⟨_, execBnew_next.2 (.inr ⟨hw, rfl⟩), rfl⟩⟩,
    ⟨_, cclrEmptiesTheCompressedBuffer s, rfl⟩,
    ⟨_, rstSetsTheResetValues s, rfl⟩,
    fun b => ⟨_, execCput_of_empty hcfg hclen b, rfl⟩⟩

/-! ### A finalized builder -/

/-- The two states have the same context (00_scope.md, glossary), its packed buffer included. -/
structure SameContext (s t : State) : Prop where
  phase : t.phase = s.phase
  packed : t.packed = s.packed
  width : t.width = s.width
  count : t.count = s.count

theorem SameContext.trans (h : SameContext s t) (h' : SameContext t u) : SameContext s u :=
  ⟨h'.phase.trans h.phase, h'.packed.trans h.packed, h'.width.trans h.width, h'.count.trans h.count⟩

theorem execAll_cons {is : List Instr} (h : execAll (i :: is) s = .next t) :
    ∃ u, exec i s = .next u ∧ execAll is u = .next t := by
  rw [execAll] at h
  split at h
  · exact ⟨_, ‹_›, h⟩
  · cases h
  · cases h

/-- The commands that begin a context or end one: `RST`, `BNEW` and `DNEW`. -/
def replacesContext : Instr → Bool
  | .rst | .bnew _ | .dnew _ => true
  | _ => false

theorem replacesContext_eq_false (h : i ≠ .rst ∧ (∀ w, i ≠ .bnew w) ∧ ∀ w, i ≠ .dnew w) :
    replacesContext i = false := by
  obtain ⟨hrst, hbnew, hdnew⟩ := h
  cases i with
  | rst => exact absurd rfl hrst
  | bnew w => exact absurd rfl (hbnew w)
  | dnew w => exact absurd rfl (hdnew w)
  | _ => rfl

theorem execBadd_of_built (hp : s.phase = .built) (c : Word) :
    execBadd c s = .next (s.failed .builderAlreadyFinalized) := ite_phase_of_built hp

theorem execBfin_of_built (hp : s.phase = .built) : execBfin s = .next (s.failed .builderAlreadyFinalized) :=
  ite_phase_of_built hp

/-- `BADD` and `BFIN` refuse, and the other commands write no field of the context (10_state.md R34). -/
theorem exec_keeps_context_of_built (hi : replacesContext i = false) (hp : s.phase = .built) (h : exec i s = .next t) :
    SameContext s t := by
  cases i with
  | badd c =>
    cases (execBadd_of_built hp c).symm.trans h
    exact ⟨rfl, rfl, rfl, rfl⟩
  | bfin =>
    cases (execBfin_of_built hp).symm.trans h
    exact ⟨rfl, rfl, rfl, rfl⟩
  | cclr =>
    cases respond_next.1 h
    exact ⟨rfl, rfl, rfl, rfl⟩
  | cput b => obtain ⟨-, rfl⟩ | ⟨-, rfl⟩ := execCput_next h <;> exact ⟨rfl, rfl, rfl, rfl⟩
  | stat | bcnt | get | len | clen | cget | plen | pget =>
    obtain ⟨q, rfl⟩ := exec_next_of_readsOnly rfl h
    exact ⟨rfl, rfl, rfl, rfl⟩
  | rst | bnew | dnew => exact absurd hi nofun

theorem execAll_keeps_context_of_built {is : List Instr} (his : ∀ i ∈ is, replacesContext i = false)
    (hp : s.phase = .built) (h : execAll is s = .next t) : SameContext s t := by
  induction is generalizing s with
  | nil =>
    cases h
    exact ⟨rfl, rfl, rfl, rfl⟩
  | cons i is ih =>
    obtain ⟨hi, his⟩ := List.forall_mem_cons.1 his
    obtain ⟨u, hu, h⟩ := execAll_cons h
    have hsame := exec_keeps_context_of_built hi hp hu
    exact hsame.trans (ih his (hsame.phase.trans hp) h)

/-- Settles O22: no command but the three replaces the context, so `BADD` and `BFIN` still find it finalized. -/
theorem finalizedBuilderStaysFinalized : Obligations.FinalizedBuilderStaysFinalized := by
  intro s t is hp his h
  obtain ⟨hphase, hpacked, hwidth, hcount⟩ :=
    execAll_keeps_context_of_built (fun i hi => replacesContext_eq_false (his i hi)) hp h
  have hbuilt := hphase.trans hp
  exact ⟨hbuilt, hpacked, hwidth, hcount, execBadd_of_built hbuilt, execBfin_of_built hbuilt⟩

/-! ### What `GET` and `LEN` depend on -/

/-- The response at the port where a command ends in a next state. -/
def responseOf : Result → Option PortWord
  | .next t => t.rsp
  | .fault _ | .refused _ => none

theorem answers_iff {st : Status} {r : Word} :
    Answers i s st r ↔ responseOf (exec i s) = some (responseWord st r) := by
  rw [Answers]
  cases exec i s with
  | next t => exact ⟨fun ⟨_, ht, hrsp⟩ => Host.Outcome.next.inj ht ▸ hrsp, fun hrsp => ⟨t, rfl, hrsp⟩⟩
  | fault | refused => exact ⟨nofun, nofun⟩

theorem answers_congr {st : Status} {r : Word} (h : responseOf (exec i t) = responseOf (exec i s)) :
    Answers i s st r ↔ Answers i t st r := by
  rw [answers_iff, answers_iff, h]

theorem responseOf_attempt {α : Type} {x : Except Fault α} {k k' : α → Result}
    (h : ∀ a, responseOf (k' a) = responseOf (k a)) : responseOf (attempt x k') = responseOf (attempt x k) := by
  cases x with
  | ok a => exact h a
  | error f => rfl

theorem responseOf_ite {c : Prop} [Decidable c] {x y x' y' : Result} (hx : responseOf x' = responseOf x)
    (hy : responseOf y' = responseOf y) : responseOf (if c then x' else y') = responseOf (if c then x else y) := by
  rw [apply_ite responseOf, apply_ite responseOf, hx, hy]

/-- Settles O38: both commands test the phase, the width and `PLEN`, and `GET` reads a byte of `PBUF`; only the state
they respond from differs. -/
theorem lookupsIgnoreTheCompressedBuffer : Obligations.LookupsIgnoreTheCompressedBuffer :=
  fun _ _ _ _ _ _ =>
    ⟨fun _ => answers_congr (responseOf_ite rfl (responseOf_ite rfl (responseOf_attempt fun _ => rfl))),
      answers_congr (responseOf_ite rfl rfl)⟩

end Sys2Proof.Machine
end
